-- ==== Sys2Proof/Word.lean ====
section
/-! DEFINITION. The one fixed word of the hardware: the byte of the buffer memory (R41). Every other register has a width
that is a parameter (R10 to R12), so its value is a natural number with its modulus written out where it wraps (R16). -/

namespace Sys2Proof

/-- A byte of the buffer memory, and of the register `PIX` (R17, R41). -/
abbrev Byte := BitVec 8

end Sys2Proof
end

