-- ==== Sys2Proof/Config.lean ====
section
/-! DEFINITION. The parameters of the block (R9 to R14), the divisors of its duration table (R62), what an unlisted byte of
memory reads as, and the free values: constants with no body, which nothing in Lean can evaluate. -/

namespace Sys2Proof

/-- The named parameters of one build of the block (R9 to R14, R32). They are no registers: no step writes them. -/
structure Config where
  /-- `F_TICK`, the tick frequency in hertz (R9; OPEN). -/
  fTick : Nat
  /-- `CCW`, the width of `CCOUNT`, `REF` and the duration registers (R10). -/
  ccw : Nat
  /-- `AW`, the width of a buffer address (R11). -/
  aw : Nat
  /-- `LENW`, the width of `LEN` and `BYTEIDX` (R11). -/
  lenw : Nat
  /-- `PINW`, the width of the pin handle (R12). -/
  pinw : Nat
  /-- `DUAL_RATE`: the slow profile exists in this build (R13). -/
  dualRate : Bool
  /-- `T_RESET` in nanoseconds (R14); no rule of the block reads it, only Safety.lean does. -/
  tReset : Nat
  /-- `TOL_FAST` in nanoseconds (R14); no rule of the block reads it, only Safety.lean does. -/
  tolFast : Nat
  deriving DecidableEq, Repr

/-- `NPINS`, the number of output lines: a power of two, so that every `PINW`-bit value is a valid handle (R12). -/
def Config.npins (c : Config) : Nat := 2 ^ c.pinw

/-- The defaults of R10 to R14, at the tick frequency of the spec's own worked examples (R9; DESIGN CHOICE, logs 1 and 19). -/
def Config.standard : Config where
  fTick := 80000000
  ccw := 32
  aw := 32
  lenw := 32
  pinw := 4
  dualRate := true
  tReset := 50000
  tolFast := 150

/-- What a byte of the buffer memory that nothing has written reads as (DESIGN CHOICE, unsafe, log 5). -/
def Config.blankByte : Byte := 0

/-- The registers that R37 leaves unspecified after the reset step. -/
inductive UnspecifiedReg where
  | ref
  | t0h
  | t1h
  | period
  | tsel
  | pix
  | byteIdx
  | bitIdx
  | pin
  | base
  | len
  | mode
  deriving DecidableEq, Repr

/-- FREE VALUE: what a register that R37 leaves unspecified holds after the reset step of the given tick (log 3). -/
opaque Config.freeRegister : UnspecifiedReg → Nat → Nat

/-- FREE VALUE: whether a read of a byte that the host writes in the very same tick returns the new byte (U3, log 14). -/
opaque Config.freeReadsNew : Nat → Bool

/-- FREE VALUE: the level, in the given tick, of the wire of a line that is not configured as an output, or of the line of a
call that lacks that in some tick (R29, R115, U1, log 15). -/
opaque Config.freeWire : Nat → Nat → Bool

/-- FREE VALUE: what a duration register holds when the quotient does not fit its width, which can happen only outside the
supported range of `F_TICK` (R9, R62; log 16). Its arguments are the quotient and the width. -/
opaque Config.freeDuration : Nat → Nat → Nat

end Sys2Proof
end

