-- ==== Sys2Proof/Syntax.lean ====
section
/-! DEFINITION. The twelve operations of spec/opcode_table.json (R56 and R125), one constructor a row. The block fetches no
instructions: an operation is what a tick performs (R73) or a named part of what it performs. -/

namespace Sys2Proof

/-- One constructor per row of the opcode table. Operands are port values, natural numbers whose widths are parameters of
the block (R57); `WellFormed.lean` says which fit. -/
inductive Instr where
  /-- `TX.FAST pin, base, len`: the transmit command with the fast profile (R76). -/
  | txFast (pin base len : Nat)
  /-- `TX.SLOW pin, base, len`: the transmit command with the slow profile (R77). -/
  | txSlow (pin base len : Nat)
  /-- `IDLE` (R75). -/
  | idle
  /-- `CELLWAIT` (R85). -/
  | cellwait
  /-- `HIGHWAIT` (R88). -/
  | highwait
  /-- `LATCHWAIT` (R91). -/
  | latchwait
  /-- `SYM0`: the symbol of a 0 bit (R86). -/
  | sym0
  /-- `SYM1`: the symbol of a 1 bit (R87). -/
  | sym1
  /-- `PINCLR`: `PinWrite(p, 0)` (R82). -/
  | pinclr (p : Nat)
  /-- `PINSET`: `PinWrite(p, 1)` (R81). -/
  | pinset (p : Nat)
  /-- `CCREAD`: `CCRead()` (R80). -/
  | ccread
  /-- `RST`: the reset step (R125). -/
  | rst
  deriving DecidableEq, Repr

end Sys2Proof
end

