-- ==== Sys2Proof/WellFormed.lean ====
section
/-! DEFINITION. Which operations exist in a build: those whose operands fit their ports (R57). No value of a port's width
is rejected (R70, R107). -/

namespace Sys2Proof

/-- A pin handle fits `CMD_PIN`; every value that does is a line of `GPIO_OUT` (R12, R70). -/
def Config.pinFits (c : Config) (p : Nat) : Bool := p < c.npins

/-- A buffer base fits `CMD_BASE` (R57). -/
def Config.baseFits (c : Config) (b : Nat) : Bool := b < 2 ^ c.aw

/-- A buffer length fits `CMD_LEN` (R57). -/
def Config.lenFits (c : Config) (n : Nat) : Bool := n < 2 ^ c.lenw

/-- Every operand fits the port that carries it. -/
def Instr.wf (c : Config) : Instr → Bool
  | .txFast pin base len => c.pinFits pin && c.baseFits base && c.lenFits len
  | .txSlow pin base len => c.pinFits pin && c.baseFits base && c.lenFits len
  | .idle => true
  | .cellwait => true
  | .highwait => true
  | .latchwait => true
  | .sym0 => true
  | .sym1 => true
  | .pinclr p => c.pinFits p
  | .pinset p => c.pinFits p
  | .ccread => true
  | .rst => true

end Sys2Proof
end

