-- ==== Sys2Proof/Decode.lean ====
section
/-! DEFINITION. The decoder, total on every encoding of every format of 30_encoding.md, and the encoder. The block has no
instruction word (R56): an encoding is the value of the selector of ONE format, with the operand ports beside it where the
format has any (R57, R60, R61, R67). A two-bit selector is written as its two bits, high bit first. -/

namespace Sys2Proof

/-- An encoding: a format of the opcode table with the value of its fields. -/
inductive Enc where
  /-- Format `CMD`: the ports `START`, `CMD_MODE`, `CMD_PIN`, `CMD_LEN`, `CMD_BASE` of one tick (R57). -/
  | cmd (start mode : Bool) (pin len base : Nat)
  /-- Format `ST`: the sequencing register, bit 1 and bit 0 (R60). -/
  | st (b1 b0 : Bool)
  /-- Format `CELL`: the data bit of a cell (R67). -/
  | cell (bit : Bool)
  /-- Format `LVL`: the level operand of the pin-write primitive and its line (R61). -/
  | lvl (level : Bool) (p : Nat)
  /-- Format `NONE`: the reset input; at 0 the tick performs no reset and what stands in every tick is the counter read. -/
  | bare (rst : Bool)
  deriving DecidableEq, Repr

/-- Why an encoding is no operation. -/
inductive DecodeError where
  /-- Format `CMD` with `start = 0`: no command is presented (R57). Raised by `decode`; safe. -/
  | noCommand
  /-- An operand does not fit the port that would carry it, so no such encoding exists on the block (R57, R12).
  Raised by `decode`; safe. -/
  | operandTooWide
  deriving DecidableEq, Repr

/-- An operation whose operands fit their ports; any other is rejected by name. -/
def checkOperands (c : Config) (i : Instr) : Except DecodeError Instr :=
  if i.wf c then .ok i else .error .operandTooWide

/-- The operation an encoding stands for. -/
def decode (c : Config) : Enc → Except DecodeError Instr
  | .cmd true true pin len base => checkOperands c (.txFast pin base len)
  | .cmd true false pin len base => checkOperands c (.txSlow pin base len)
  | .cmd false _ _ _ _ => .error .noCommand
  | .st false false => .ok .idle
  | .st false true => .ok .cellwait
  | .st true false => .ok .highwait
  | .st true true => .ok .latchwait
  | .cell false => .ok .sym0
  | .cell true => .ok .sym1
  | .lvl false p => checkOperands c (.pinclr p)
  | .lvl true p => checkOperands c (.pinset p)
  | .bare false => .ok .ccread
  | .bare true => .ok .rst

/-- The encoding of an operation, from the same tables. -/
def encode : Instr → Enc
  | .txFast pin base len => .cmd true true pin len base
  | .txSlow pin base len => .cmd true false pin len base
  | .idle => .st false false
  | .cellwait => .st false true
  | .highwait => .st true false
  | .latchwait => .st true true
  | .sym0 => .cell false
  | .sym1 => .cell true
  | .pinclr p => .lvl false p
  | .pinset p => .lvl true p
  | .ccread => .bare false
  | .rst => .bare true

/-- Whether every field of an encoding fits the port or register that carries it (R57). -/
def Enc.fits (c : Config) : Enc → Bool
  | .cmd _ _ pin len base => c.pinFits pin && c.lenFits len && c.baseFits base
  | .st _ _ => true
  | .cell _ => true
  | .lvl _ p => c.pinFits p
  | .bare _ => true

/-- The first encoding of a list that decodes. -/
def decodeFirst (c : Config) : List Enc → Option Instr
  | [] => none
  | e :: rest =>
    match decode c e with
    | .ok i => some i
    | .error _ => decodeFirst c rest

/-- The operation read from bits numbered as the opcode table numbers them. The table's rows belong to five formats whose
selectors are separate ports and registers and whose codes therefore coincide (log 8): a bare number is read in the first
format, in the table's order, whose selector has that many bits and whose code it is. Operand ports are zero. -/
def decodeTableWord (nbits w : Nat) : Option Instr :=
  match nbits with
  | 0 => if w = 0 then decodeFirst Config.standard [.bare false] else none
  | 1 => if w < 2 then decodeFirst Config.standard [.cell (w.testBit 0)] else none
  | _ =>
    if w < 4 then
      decodeFirst Config.standard
        [.cmd (w.testBit 1) (w.testBit 0) 0 0 0, .st (w.testBit 1) (w.testBit 0)]
    else none

end Sys2Proof
end

