-- ==== Sys2Proof/Machine/State.lean ====
section
/-! DEFINITION. The state of the machine as plain data: the sixteen registers of R17, the external state the block depends
on (GPIO_DIR, the buffer memory), the parameters, and what the host does in the ticks still to come. Also why a step can
stop, and the state after reset. -/

namespace Sys2Proof.Machine

/-- The bit-rate mode (R58: 1 = FAST, 0 = SLOW; "a model may use an enumeration"). -/
inductive Mode where
  | slow
  | fast
  deriving DecidableEq, Repr

/-- The sequencing state `ST` (R25, R60). -/
inductive SeqState where
  /-- No call in progress. -/
  | idle
  /-- Step 3a: waiting until the next cell may start. -/
  | waitCell
  /-- Step 3d: waiting until the high phase has lasted long enough. -/
  | waitHigh
  /-- Step 4: waiting until the last cell is complete. -/
  | latch
  deriving DecidableEq, Repr

/-- The buffer memory (R41): address and byte, addresses strictly rising, no entry equal to what an unlisted address reads
as (`Memory.wf`). -/
abbrev Memory := List Host.Cell

/-- The input ports during one tick (R30). -/
structure Ports where
  rst : Bool
  start : Bool
  cmdMode : Mode
  cmdPin : Nat
  cmdBase : Nat
  cmdLen : Nat
  deriving DecidableEq, Repr

/-- What the host and the other agents do in one tick (R143, R144): the values on the input ports, and the writes of buffer
bytes, of `GPIO_OUT` lines and of `GPIO_DIR` bits that land in that tick, in their order. -/
structure HostMove where
  ports : Ports
  memWrites : List Host.Cell
  pinWrites : List (Nat × Bool)
  dirWrites : List (Nat × Bool)
  deriving DecidableEq, Repr

/-- The whole state during one tick. -/
@[ext]
structure State where
  /-- The parameters of the build (R32); no step writes them. -/
  cfg : Config
  /-- `CCOUNT`, the cycle counter (R18). -/
  ccount : Nat
  /-- `REF`, the reference timestamp of the current wait (R19). -/
  ref : Nat
  /-- `T0H` (R20). -/
  t0h : Nat
  /-- `T1H` (R20). -/
  t1h : Nat
  /-- `PERIOD` (R20). -/
  period : Nat
  /-- `TSEL`, the high-duration target of the current bit (R21). -/
  tsel : Nat
  /-- `PIX`, the buffer byte being emitted (R22). -/
  pix : Byte
  /-- `BYTEIDX`, the byte of the cursor (R23). -/
  byteIdx : Nat
  /-- `BITIDX`, the bit of the cursor (R23). -/
  bitIdx : Fin 8
  /-- `PIN`, the latched pin handle (R24). -/
  pin : Nat
  /-- `BASE`, the latched buffer address (R24). -/
  base : Nat
  /-- `LEN`, the latched buffer length (R24). -/
  len : Nat
  /-- `MODE`, the latched bit-rate mode (R24). -/
  mode : Mode
  /-- `ST`, the sequencing state (R25). -/
  st : SeqState
  /-- `BUSY` (R26). -/
  busy : Bool
  /-- `GPIO_OUT`, bit `p` the level of line `p` (R27). -/
  gpioOut : Nat
  /-- `GPIO_DIR`, bit `p` set when line `p` is an output; outside the block (R28). -/
  gpioDir : Nat
  /-- The buffer memory; outside the block (R41). -/
  mem : Memory
  /-- The model's own field: in a call, whether `GPIO_DIR[PIN]` has read 1 in every tick of it before this one; outside a
  call true. Only the wire reads it (R115, log 15). -/
  outputHeld : Bool
  /-- The model's own field: the host's moves still to come, the head that of the current tick, nothing past the end (log 6). -/
  host : List HostMove
  /-- The model's own field: the number of the current tick (R15), at which free values are drawn (log 6). -/
  tick : Nat
  deriving DecidableEq, Repr

/-- Why the machine stops with a fault. The block itself raises none (R105): both are accesses of the HOST to something that
does not exist. -/
inductive Fault where
  /-- The host writes a byte at an address outside `0 .. 2^AW - 1` (R41). Raised by `step`; safe. -/
  | noSuchAddress
  /-- The host writes a line of `GPIO_OUT` or of `GPIO_DIR` that is not one of the `NPINS` lines (R12). Raised by `step`;
  safe. -/
  | noSuchLine
  deriving DecidableEq, Repr

/-- Why a step has no meaning. -/
inductive Refusal where
  /-- The operation has no meaning yet. Raised by `exec` only, and by no arm of this model; safe. -/
  | notModelled (mnemonic : String)
  /-- An agent other than the block writes `GPIO_OUT[PIN]` in a tick where `BUSY = 1`: the run has no meaning (R116, U2).
  Raised by `step`; safe. -/
  | foreignPinWrite
  /-- The encoding that selects the tick's operation is none, because an operand is wider than its port (R57). Raised by
  `step`; safe. -/
  | illFormed (e : DecodeError)
  deriving DecidableEq, Repr

/-- The state after reset. `ST`, `BUSY` and `GPIO_OUT` are the spec's (R37); every other register and `GPIO_DIR` hold the
value the log names (DESIGN CHOICE, unsafe, logs 2 and 4), the parameters theirs (log 1), memory lists nothing (log 5),
no call has left its line without output (log 15), and the host does nothing (log 6). -/
def State.reset : State where
  cfg := Config.standard
  ccount := 0
  ref := 0
  t0h := 0
  t1h := 0
  period := 0
  tsel := 0
  pix := 0
  byteIdx := 0
  bitIdx := 0
  pin := 0
  base := 0
  len := 0
  mode := .slow
  st := .idle
  busy := false
  gpioOut := 0
  gpioDir := 0
  mem := []
  outputHeld := true
  host := []
  tick := 0

end Sys2Proof.Machine
end

