-- ==== Sys2Proof/Machine/Operands.lean ====
section
/-! DEFINITION. The arithmetic and the fields the rules are written in (R16), the duration table (R62), and the codes of the
sequencing register and of the mode (R58, R60). -/

namespace Sys2Proof.Machine

/-- `a +_N b` (R16). -/
def addMod (n a b : Nat) : Nat := (a + b) % 2 ^ n

/-- `a -_N b` (R16): subtraction modulo `2^N`. -/
def subMod (n a b : Nat) : Nat := (a % 2 ^ n + (2 ^ n - b % 2 ^ n)) % 2 ^ n

/-- `GPIO_OUT[p]`: bit `p` of a register of lines (R16, R27). -/
def lineLevel (lines p : Nat) : Bool := lines.testBit p

/-- `GPIO_OUT[p] <- b`: one bit written, every other left (R16): `lines | (1 << p)` (R81) or `lines & ~(1 << p)` (R82). -/
def setLine (lines p : Nat) : Bool → Nat
  | true => lines ||| (1 <<< p)
  | false => lines ^^^ (lines &&& (1 <<< p))

/-- Lines written in their order. -/
def setLines : Nat → List (Nat × Bool) → Nat
  | lines, [] => lines
  | lines, (p, b) :: rest => setLines (setLine lines p b) rest

/-- `byte[i]`: bit `i` of a byte, bit 7 the most significant (R16, R69). -/
def byteBit (byte : Byte) (i : Fin 8) : Bool := byte.getLsbD i.val

/-- `zext_CCW(n)` (R62): for `F_TICK < 2^CCW` each quotient fits. One that does not fit is a free value (R9, log 16). -/
def zextCcw (ccw n : Nat) : Nat :=
  if n < 2 ^ ccw then n else Config.freeDuration n ccw % 2 ^ ccw

/-- The divisor of `T0H` (R62). -/
def t0hDivisor : Mode → Nat
  | .fast => 2500000
  | .slow => 2000000

/-- The divisor of `T1H` (R62). -/
def t1hDivisor : Mode → Nat
  | .fast => 1250000
  | .slow => 833333

/-- The divisor of `PERIOD` (R62). -/
def periodDivisor : Mode → Nat
  | .fast => 800000
  | .slow => 400000

/-- `T0H` of a mode, in ticks (R62, R63: floor division). -/
def t0hOf (c : Config) (m : Mode) : Nat := zextCcw c.ccw (c.fTick / t0hDivisor m)

/-- `T1H` of a mode, in ticks (R62, R63). -/
def t1hOf (c : Config) (m : Mode) : Nat := zextCcw c.ccw (c.fTick / t1hDivisor m)

/-- `PERIOD` of a mode, in ticks (R62, R63). -/
def periodOf (c : Config) (m : Mode) : Nat := zextCcw c.ccw (c.fTick / periodDivisor m)

/-- The profile a command gets: with `DUAL_RATE = false` the mode is ignored and the fast profile is used (R13, R59). -/
def effectiveMode (c : Config) (m : Mode) : Mode := if c.dualRate then m else .fast

/-- The code of a mode on `CMD_MODE` (R58). -/
def modeBit : Mode → Bool
  | .fast => true
  | .slow => false

/-- The sequencing register as an encoding of format `ST` (R60). -/
def seqEnc : SeqState → Enc
  | .idle => .st false false
  | .waitCell => .st false true
  | .waitHigh => .st true false
  | .latch => .st true true

end Sys2Proof.Machine
end

