-- ==== Sys2Proof/Machine/Flags.lean ====
section
/-! DEFINITION. The comparisons of the waits. The block has no flags and no condition codes: each comparison is evaluated
and consumed in the same step (R33), and `BUSY` is the only status bit (R26). All comparisons are unsigned and `>=` (R16,
R85). -/

namespace Sys2Proof.Machine

/-- `elapsed = now -_CCW REF`, with `now = CCRead()` (R16, R80). -/
def elapsed (s : State) : Nat := subMod s.cfg.ccw s.ccount s.ref

/-- `elapsed >= PERIOD`: the wait of `CELLWAIT` and of `LATCHWAIT` is over (R85, R91). -/
def periodOver (s : State) : Bool := decide (s.period ≤ elapsed s)

/-- `elapsed >= TSEL`: the wait of `HIGHWAIT` is over (R88). -/
def highOver (s : State) : Bool := decide (s.tsel ≤ elapsed s)

end Sys2Proof.Machine
end

