-- ==== Sys2Proof/Machine/Memory.lean ====
section
/-! DEFINITION. The buffer memory (R41, R43): a list in one canonical form. -/

namespace Sys2Proof.Machine

/-- The byte at an address; an address that is not listed holds the blank byte. -/
def Memory.read : Memory → Nat → Byte
  | [], _ => Config.blankByte
  | (k, v) :: rest, a => if a = k then v else Memory.read rest a

/-- The memory with one byte replaced, canonical again: a blank byte is not listed. -/
def Memory.write : Memory → Nat → Byte → Memory
  | [], a, b => if b = Config.blankByte then [] else [(a, b)]
  | (k, v) :: rest, a, b =>
    if a = k then
      if b = Config.blankByte then rest else (a, b) :: rest
    else if a < k then
      if b = Config.blankByte then (k, v) :: rest else (a, b) :: (k, v) :: rest
    else (k, v) :: Memory.write rest a b

/-- The memory after writes in their order. -/
def Memory.writeAll : Memory → List Host.Cell → Memory
  | m, [] => m
  | m, (a, b) :: rest => Memory.writeAll (m.write a b) rest

/-- The canonical form from an address on: addresses rise strictly from `lo`, and no listed byte is blank. -/
def Memory.wfFrom : Nat → Memory → Bool
  | _, [] => true
  | lo, (k, v) :: rest => decide (lo ≤ k) && decide (v ≠ Config.blankByte) && Memory.wfFrom (k + 1) rest

/-- The canonical form. -/
def Memory.wf (m : Memory) : Bool := Memory.wfFrom 0 m

/-- Every listed address is one of the `2^aw` addresses of the space (R41). -/
def Memory.fits (aw : Nat) (m : Memory) : Bool := m.all fun cell => decide (cell.1 < 2 ^ aw)

/-- The bytes `b0, b1, …` written from an address upward (R72: `MEM[addr] = b0, b1, ...`). Where a script's line runs past
`2^AW - 1`, R72 does not say that it wraps, and it does not here (DESIGN CHOICE, log 22). -/
def Memory.fill : Memory → Nat → List Byte → Memory
  | m, _, [] => m
  | m, a, b :: rest => Memory.fill (m.write a b) (a + 1) rest

end Sys2Proof.Machine
end

