-- ==== Sys2Proof/Machine/Ops.lean ====
section
/-! DEFINITION. The named operations over the registers and the memory that the meanings are written in. Each reads the
state it is given and writes the next (R15). The block has no exception to take and none to return from (R105, R112, R113);
the reset step is the one event that ends a call early (R114, R125). -/

namespace Sys2Proof.Machine

/-- `CCRead()` (R80). -/
def ccRead (s : State) : Nat := s.ccount

/-- `CCOUNT <- now +_CCW 1`, in every tick (R74). -/
def countTick (s : State) : State := { s with ccount := addMod s.cfg.ccw (ccRead s) 1 }

/-- `PinWrite(p, b)` (R81, R82). -/
def pinWrite (p : Nat) (b : Bool) (s : State) : State := { s with gpioOut := setLine s.gpioOut p b }

/-- A tick in which the host presents nothing and writes nothing; with `START` and `RST` at 0 the command ports are not
sampled, so the values here are immaterial (R30, R75). -/
def quietMove : HostMove where
  ports := { rst := false, start := false, cmdMode := .slow, cmdPin := 0, cmdBase := 0, cmdLen := 0 }
  memWrites := []
  pinWrites := []
  dirWrites := []

/-- The move of the host in the current tick: the head of the queue; past its end the host is quiet (log 6). -/
def currentMove (s : State) : HostMove := s.host.headD quietMove

/-- The byte the host writes at an address in the current tick, if it writes one: the last of its writes there. -/
def byteWrittenNow : List Host.Cell → Nat → Option Byte
  | [], _ => none
  | (k, v) :: rest, a =>
    match byteWrittenNow rest a with
    | some b => some b
    | none => if k = a then some v else none

/-- `MemRead(addr, 1)` (R43): the byte as it stands in this tick. Where the host writes that byte in this very tick, the old
or the new one, a free choice (R53, U3; log 14). -/
def memRead (s : State) (a : Nat) : Byte :=
  match byteWrittenNow (currentMove s).memWrites a with
  | some b => if Config.freeReadsNew s.tick then b else s.mem.read a
  | none => s.mem.read a

/-- The address of the current buffer byte: `BASE +_AW zext_AW(BYTEIDX)` (R42). -/
def byteAddress (s : State) : Nat := addMod s.cfg.aw s.base s.byteIdx

/-- The current byte: from memory at bit 7, from `PIX` otherwise (R22, R69). -/
def currentByte (s : State) : Byte := if s.bitIdx = 7 then memRead s (byteAddress s) else s.pix

/-- The high-duration target of a data bit (R69, R86, R87). -/
def highTarget (s : State) (bit : Bool) : Nat := if bit then s.t1h else s.t0h

/-- `TSEL <- T1H` or `TSEL <- T0H` (R86, R87). -/
def selectTarget (bit : Bool) (s : State) : State := { s with tsel := highTarget s bit }

/-- The accept step (R76, R77, R78): latch the operands, compute the durations, set the reference one period into the past,
put the cursor at byte 0 bit 7, set `BUSY`. -/
def accept (m : Mode) (pin base len : Nat) (s : State) : State :=
  countTick
    { s with
      pin := pin
      base := base
      len := len
      mode := m
      t0h := t0hOf s.cfg m
      t1h := t1hOf s.cfg m
      period := periodOf s.cfg m
      ref := subMod s.cfg.ccw (ccRead s) (periodOf s.cfg m)
      byteIdx := 0
      bitIdx := 7
      busy := true
      st := if len = 0 then .latch else .waitCell }

/-- The raising half of a `CELLWAIT` step (R85: steps 3b and 3c): pin high, reference captured, byte obtained, target
selected by the cursor's bit. -/
def raiseCell (s : State) : State :=
  { selectTarget (byteBit (currentByte s) s.bitIdx) (pinWrite s.pin true s) with
    ref := ccRead s
    pix := currentByte s
    st := .waitHigh }

/-- The cursor and the sequencing state after a fall (R88, R92). -/
def advanceCursor (s : State) : State :=
  if s.bitIdx ≠ 0 then { s with bitIdx := s.bitIdx - 1, st := .waitCell }
  else if addMod s.cfg.lenw s.byteIdx 1 ≠ s.len then
    { s with byteIdx := addMod s.cfg.lenw s.byteIdx 1, bitIdx := 7, st := .waitCell }
  else { s with st := .latch }

/-- The lowering half of a `HIGHWAIT` step (R88: step 3e and the loop advance). -/
def lowerCell (s : State) : State := advanceCursor (pinWrite s.pin false s)

/-- The return (R91: step 4): `BUSY <- 0`, `ST <- IDLE`. -/
def finishCall (s : State) : State := { s with busy := false, st := .idle }

/-- A tick of `IDLE` (R75). -/
def idleTick (s : State) : State := countTick s

/-- A tick of `CELLWAIT` (R85). -/
def cellTick (s : State) : State := countTick (if periodOver s then raiseCell s else s)

/-- A tick of `HIGHWAIT` (R88). -/
def highTick (s : State) : State := countTick (if highOver s then lowerCell s else s)

/-- A tick of `LATCHWAIT` (R91). -/
def latchTick (s : State) : State := countTick (if periodOver s then finishCall s else s)

/-- The micro-operation that `ST` selects (R60, R73). -/
def microTick (s : State) : State :=
  match s.st with
  | .idle => idleTick s
  | .waitCell => cellTick s
  | .waitHigh => highTick s
  | .latch => latchTick s

/-- A command presented in this tick: accepted in `IDLE` with the effective profile; while a call is in progress it is
ignored entirely and the micro-operation of `ST` is taken (R79, R111). -/
def presentCommand (m : Mode) (pin base len : Nat) (s : State) : State :=
  if s.st = .idle then accept (effectiveMode s.cfg m) pin base len s else microTick s

/-- What a register that R37 leaves unspecified holds after the reset step: any value of its width (log 3). -/
def unspecified (s : State) (r : UnspecifiedReg) (modulus : Nat) : Nat :=
  Config.freeRegister r s.tick % modulus

/-- The reset step (R125): `IDLE`, not busy, every line 0, the counter goes on. The other registers of the block are
unspecified from here on (R37, R128, C11); what is outside the block stays. -/
def resetStep (s : State) : State :=
  countTick
    { s with
      st := .idle
      busy := false
      gpioOut := 0
      ref := unspecified s .ref (2 ^ s.cfg.ccw)
      t0h := unspecified s .t0h (2 ^ s.cfg.ccw)
      t1h := unspecified s .t1h (2 ^ s.cfg.ccw)
      period := unspecified s .period (2 ^ s.cfg.ccw)
      tsel := unspecified s .tsel (2 ^ s.cfg.ccw)
      pix := BitVec.ofNat 8 (unspecified s .pix 256)
      byteIdx := unspecified s .byteIdx (2 ^ s.cfg.lenw)
      bitIdx := Fin.ofNat 8 (unspecified s .bitIdx 8)
      pin := unspecified s .pin (2 ^ s.cfg.pinw)
      base := unspecified s .base (2 ^ s.cfg.aw)
      len := unspecified s .len (2 ^ s.cfg.lenw)
      mode := if unspecified s .mode 2 = 0 then .slow else .fast }

end Sys2Proof.Machine
end

