-- ==== Sys2Proof/Machine/Command.lean ====
section
/-! DEFINITION. The two commands (40_transmit_command.md, section 3). -/

namespace Sys2Proof.Machine

/-- `TX.FAST` (R76, R78, R79). -/
def execTxFast (pin base len : Nat) (s : State) : Host.Outcome State Fault Refusal :=
  .next (presentCommand .fast pin base len s)

/-- `TX.SLOW` (R77, R78, R79); with `DUAL_RATE = false` it is `TX.FAST` (R59). -/
def execTxSlow (pin base len : Nat) (s : State) : Host.Outcome State Fault Refusal :=
  .next (presentCommand .slow pin base len s)

end Sys2Proof.Machine
end

