-- ==== Sys2Proof/Machine/Emission.lean ====
section
/-! DEFINITION. The four micro-operations that `ST` selects (R75 and 41_bit_emission.md, section 1). The selection itself is
R73's and stands in Machine/Host.lean. -/

namespace Sys2Proof.Machine

/-- `IDLE` (R75). -/
def execIdle (s : State) : Host.Outcome State Fault Refusal := .next (idleTick s)

/-- `CELLWAIT` (R85). -/
def execCellwait (s : State) : Host.Outcome State Fault Refusal := .next (cellTick s)

/-- `HIGHWAIT` (R88). -/
def execHighwait (s : State) : Host.Outcome State Fault Refusal := .next (highTick s)

/-- `LATCHWAIT` (R91). -/
def execLatchwait (s : State) : Host.Outcome State Fault Refusal := .next (latchTick s)

end Sys2Proof.Machine
end

