-- ==== Sys2Proof/Machine/Primitives.lean ====
section
/-! DEFINITION. The three primitives (40_transmit_command.md, section 4), as the parts of a step they are: they take no tick
of their own (log 10). -/

namespace Sys2Proof.Machine

/-- `PINCLR` (R82): `PinWrite(p, 0)`. -/
def execPinclr (p : Nat) (s : State) : Host.Outcome State Fault Refusal := .next (pinWrite p false s)

/-- `PINSET` (R81): `PinWrite(p, 1)`. -/
def execPinset (p : Nat) (s : State) : Host.Outcome State Fault Refusal := .next (pinWrite p true s)

/-- `CCREAD` (R80): the read has no side effect, so the state stays; the value read is `ccRead s`, which every wait
comparison takes as `now`. -/
def execCcread (s : State) : Host.Outcome State Fault Refusal := .next s

end Sys2Proof.Machine
end

