-- ==== Sys2Proof/Machine/Reset.lean ====
section
/-! DEFINITION. The reset input (70_reset_and_hazards.md, section 1). -/

namespace Sys2Proof.Machine

/-- `RST` (R125, R128). -/
def execRst (s : State) : Host.Outcome State Fault Refusal := .next (resetStep s)

end Sys2Proof.Machine
end

