-- ==== Sys2Proof/Machine/Symbols.lean ====
section
/-! DEFINITION. The two wire symbols, as the part of the raising `CELLWAIT` step they are (R86, R87): the load of `TSEL`.
They take no tick of their own (log 10). -/

namespace Sys2Proof.Machine

/-- `SYM0` (R86): `TSEL <- T0H`. -/
def execSym0 (s : State) : Host.Outcome State Fault Refusal := .next (selectTarget false s)

/-- `SYM1` (R87): `TSEL <- T1H`. -/
def execSym1 (s : State) : Host.Outcome State Fault Refusal := .next (selectTarget true s)

end Sys2Proof.Machine
end

