-- ==== Sys2Proof/Machine/Dispatch.lean ====
section
/-! DEFINITION. One arm per row of spec/opcode_table.json. -/

namespace Sys2Proof.Machine

def exec (i : Instr) (s : State) : Host.Outcome State Fault Refusal :=
  match i with
  | .txFast pin base len => Sys2Proof.Machine.execTxFast pin base len s
  | .txSlow pin base len => Sys2Proof.Machine.execTxSlow pin base len s
  | .idle => Sys2Proof.Machine.execIdle s
  | .cellwait => Sys2Proof.Machine.execCellwait s
  | .highwait => Sys2Proof.Machine.execHighwait s
  | .latchwait => Sys2Proof.Machine.execLatchwait s
  | .sym0 => Sys2Proof.Machine.execSym0 s
  | .sym1 => Sys2Proof.Machine.execSym1 s
  | .pinclr p => Sys2Proof.Machine.execPinclr p s
  | .pinset p => Sys2Proof.Machine.execPinset p s
  | .ccread => Sys2Proof.Machine.execCcread s
  | .rst => Sys2Proof.Machine.execRst s

end Sys2Proof.Machine
end

