-- ==== Sys2Proof/Machine/Host.lean ====
section
/-! DEFINITION. What comes from outside in a tick: which operation the inputs and `ST` select (R73, R111), which host moves
stop the machine (R116 and the edges of the address and line spaces), what the host's writes do (R27, R53), the script
notation (R72), and how an operation is presented so that the very next step takes it. -/

namespace Sys2Proof.Machine

/-- The encoding that selects the operation of a tick (R73, R111): reset first, then a command presented in `IDLE`, then the
sequencing register. -/
def selector (s : State) : Enc :=
  if (currentMove s).ports.rst then .bare true
  else if s.st = .idle ∧ (currentMove s).ports.start = true then
    .cmd true (modeBit (currentMove s).ports.cmdMode) (currentMove s).ports.cmdPin (currentMove s).ports.cmdLen
      (currentMove s).ports.cmdBase
  else seqEnc s.st

/-- A host move that reaches for something that does not exist: a byte outside the address space (R41), a line that is not
one of the `NPINS` (R12). -/
def hostFault (s : State) : Option Fault :=
  if (currentMove s).memWrites.all (fun cell => s.cfg.baseFits cell.1) then
    if (currentMove s).pinWrites.all (fun w => s.cfg.pinFits w.1) &&
        (currentMove s).dirWrites.all (fun w => s.cfg.pinFits w.1) then none
    else some .noSuchLine
  else some .noSuchAddress

/-- An agent other than the block writes the driven line in a tick where `BUSY = 1` (R116). -/
def foreignWrite (s : State) : Bool :=
  s.busy && (currentMove s).pinWrites.any fun w => decide (w.1 = s.pin)

/-- What stands around the block's operation in a tick: whether the call that goes on has had its line as an output in this
tick too (R115, log 15), and the host's writes, on the state after the operation. They are seen from the next tick on (R53, V55,
log 12). In a reset tick every line is 0 afterwards, whoever wrote it (R37, log 13). -/
def hostEffects (m : HostMove) (s : State) : State :=
  { s with
    mem := s.mem.writeAll m.memWrites
    gpioDir := setLines s.gpioDir m.dirWrites
    outputHeld := !s.busy || (s.outputHeld && lineLevel s.gpioDir s.pin)
    gpioOut := if m.ports.rst then s.gpioOut else setLines s.gpioOut m.pinWrites
    host := s.host.tail
    tick := s.tick + 1 }

/-- A tick in which the host only presents a command (R72: `@t TX.FAST pin, base, len`). -/
def HostMove.tx (m : Mode) (pin base len : Nat) : HostMove :=
  { quietMove with
    ports := { rst := false, start := true, cmdMode := m, cmdPin := pin, cmdBase := base, cmdLen := len } }

/-- A tick in which the host only presents reset (R72: `@t RST`). -/
def HostMove.reset : HostMove :=
  { quietMove with
    ports := { rst := true, start := false, cmdMode := .slow, cmdPin := 0, cmdBase := 0, cmdLen := 0 } }

/-- Two lines of a script at one tick as one move (R72): what either presents or writes, this move presents and writes, the
writes in the order of the lines (log 20). Where both present a command, R72 does not say which is on the ports; here it is
the later line's (DESIGN CHOICE, log 25). -/
def HostMove.merge (a b : HostMove) : HostMove where
  ports :=
    { (if b.ports.start then b.ports else a.ports) with
        rst := a.ports.rst || b.ports.rst
        start := a.ports.start || b.ports.start }
  memWrites := a.memWrites ++ b.memWrites
  pinWrites := a.pinWrites ++ b.pinWrites
  dirWrites := a.dirWrites ++ b.dirWrites

/-- The lines of one tick as one move; the quiet move where there is none (R72: in all other ticks `START = 0`, `RST = 0`). -/
def HostMove.mergeAll : List HostMove → HostMove
  | [] => quietMove
  | m :: ms => ms.foldl HostMove.merge m

/-- The host actions of a script whose tick is `t`, in the order of the lines. -/
def linesAt (t : Nat) (lines : List (Nat × HostMove)) : List HostMove :=
  (lines.filter fun line => line.1 == t).map Prod.snd

/-- The number of ticks from tick 0 to the last line of a script. -/
def scriptTicks : List (Nat × HostMove) → Nat
  | [] => 0
  | line :: rest => max (line.1 + 1) (scriptTicks rest)

/-- The queue of a script's lines, each a tick and a host action: every line is applied at the tick written in front of it
(R72), in whatever order the lines stand and however many have one tick (log 25). -/
def hostQueue (lines : List (Nat × HostMove)) : List HostMove :=
  (List.range (scriptTicks lines)).map fun t => HostMove.mergeAll (linesAt t lines)

/-- A host script in the notation of R72, with each of its four settings given once (log 25); `GPIO_OUT@0` is 0 unless the
script gives it. -/
structure Script where
  fTick : Nat
  ccount0 : Nat
  gpioOut0 : Nat := 0
  dir : Nat
  mem : List (Nat × List Byte)
  lines : List (Nat × HostMove)
  deriving DecidableEq, Repr

/-- The buffer memory of a script before tick 0 (R72: `MEM[addr] = b0, b1, ...`). Where two lines give one address different
bytes, R72 does not say which of them it holds; here it is the later line's (DESIGN CHOICE, log 24). -/
def scriptMemory : Memory → List (Nat × List Byte) → Memory
  | m, [] => m
  | m, (a, bytes) :: rest => scriptMemory (m.fill a bytes) rest

/-- The state in which a script starts (R72, R126): the state after reset, with what the script's header sets. -/
def scriptStart (sc : Script) : State :=
  { State.reset with
    cfg := { Config.standard with fTick := sc.fTick }
    ccount := sc.ccount0
    gpioOut := sc.gpioOut0
    gpioDir := sc.dir
    mem := scriptMemory [] sc.mem
    host := hostQueue sc.lines }

/-- The state with the host's move of the current tick replaced. -/
def withMove (m : HostMove) (s : State) : State := { s with host := m :: s.host.tail }

/-- The state in which the very next step takes the operation: the command or reset on the ports of this tick, or `ST` at
the micro-operation's code. The wire symbols and the primitives are parts of steps, selected by no port and no register
(R56), so nothing presents them (log 7). -/
def presentInstr (i : Instr) (s : State) : State :=
  match i with
  | .txFast pin base len => withMove (HostMove.tx .fast pin base len) { s with st := .idle }
  | .txSlow pin base len => withMove (HostMove.tx .slow pin base len) { s with st := .idle }
  | .idle => withMove quietMove { s with st := .idle }
  | .cellwait => withMove quietMove { s with st := .waitCell }
  | .highwait => withMove quietMove { s with st := .waitHigh }
  | .latchwait => withMove quietMove { s with st := .latch }
  | .sym0 => s
  | .sym1 => s
  | .pinclr _ => s
  | .pinset _ => s
  | .ccread => s
  | .rst => withMove HostMove.reset s

/-- The state that presents the operation read from the opcode table's bits; the same state where they are none. -/
def presentTableWord (s : State) (nbits w : Nat) : State :=
  match decodeTableWord nbits w with
  | some i => presentInstr i s
  | none => s

end Sys2Proof.Machine
end

