-- ==== Sys2Proof/Machine/Tick.lean ====
section
/-! DEFINITION. One tick of the block with the host's moves around it (R73, R143): first what stops the run, then the
operation the tick's selector decodes to, then the host's writes of the tick. -/

namespace Sys2Proof.Machine

/-- What the host writes in a tick, on the outcome of the block's operation. -/
def afterOperation (m : HostMove) : Host.Outcome State Fault Refusal → Host.Outcome State Fault Refusal
  | .next t => .next (hostEffects m t)
  | .fault f => .fault f
  | .refused r => .refused r

/-- The tick, over the function that gives each operation its meaning. -/
def runTick (ex : Instr → State → Host.Outcome State Fault Refusal) (s : State) :
    Host.Outcome State Fault Refusal :=
  match hostFault s with
  | some f => .fault f
  | none =>
    if foreignWrite s then .refused .foreignPinWrite
    else
      match decode s.cfg (selector s) with
      | .error e => .refused (.illFormed e)
      | .ok i => afterOperation (currentMove s) (ex i s)

end Sys2Proof.Machine
end

