-- ==== Sys2Proof/Machine/Step.lean ====
section
/-! DEFINITION. The step function: one step per tick (R73). -/

namespace Sys2Proof.Machine

/-- One tick of the machine. -/
def step (s : State) : Host.Outcome State Fault Refusal := runTick exec s

/-- The state whose next step takes the operation that the opcode table's bits stand for (log 7). -/
def State.withFetchWord (s : State) (nbits w : Nat) : State := presentTableWord s nbits w

end Sys2Proof.Machine
end

