-- ==== Sys2Proof/Machine/Observe.lean ====
section
/-! DEFINITION. What can be seen of the machine from outside: the wire (R29, R115), the output ports (R31) and the
observation that claims speak of (R146). -/

namespace Sys2Proof.Machine

/-- The level of the pin during the tick: `GPIO_OUT[PIN]` (R15). -/
def pinLevel (s : State) : Bool := lineLevel s.gpioOut s.pin

/-- The line of the call this tick belongs to: `CMD_PIN` in its accept tick, `PIN` while `BUSY = 1`. That a call reaches from
the accept tick to the tick before the return tick is DEDUCED from R129 and R134 (log 15). -/
def callLine (s : State) : Option Nat :=
  if s.busy then some s.pin
  else if s.st = .idle ∧ (currentMove s).ports.rst = false ∧ (currentMove s).ports.start = true then
    some (currentMove s).ports.cmdPin
  else none

/-- Line `p` is an output in this tick and in each later one until `BUSY` reads 0 or the machine stops. The first argument
is the number of ticks in which the host may still change `GPIO_DIR`. -/
def outputAhead : Nat → Nat → State → Bool
  | 0, p, s => lineLevel s.gpioDir p
  | n + 1, p, s =>
    lineLevel s.gpioDir p &&
      match step s with
      | .next t => if t.busy then outputAhead n p t else true
      | .fault _ => true
      | .refused _ => true

/-- In a tick of a call on line `p`: the line is an output in every tick of that call, the ones before and the ones to come
(R115, R129). Past the end of its queue the host changes nothing, so no further tick needs looking at. -/
def callHasOutput (s : State) (p : Nat) : Bool := s.outputHeld && outputAhead s.host.length p s

/-- The wire of a line during the tick: the register's bit where the line is an output, any value where it is not (R29, U1),
and any value in EVERY tick of a call in some tick of which its line is no output (R115, D17; log 15). -/
def wire (s : State) (p : Nat) : Bool :=
  if lineLevel s.gpioDir p && (decide (callLine s ≠ some p) || callHasOutput s p) then lineLevel s.gpioOut p
  else Config.freeWire s.tick p

/-- The address on the memory read port in a tick in which a byte is read (R31, R48): the raising `CELLWAIT` step of bit 7. -/
def readAddress (s : State) : Option Nat :=
  if (currentMove s).ports.rst = false ∧ s.st = .waitCell ∧ periodOver s = true ∧ s.bitIdx = 7 then
    some (byteAddress s)
  else none

/-- What a claim about the block may speak of in one tick (R146). -/
structure Observation where
  busy : Bool
  lines : Nat
  readAt : Option Nat
  deriving DecidableEq, Repr

/-- The observation of a tick (R146). -/
def observe (s : State) : Observation where
  busy := s.busy
  lines := s.gpioOut
  readAt := readAddress s

/-- The run of a script is over (R145): the script has no further action and `ST = IDLE`. Whether a tick that changes only
the `CMD_*` ports, with `START = RST = 0` and no write, is a further action the spec leaves open; here every move but the
quiet one is (DESIGN CHOICE, log 23). -/
def runOver (s : State) : Bool := s.host.all (fun m => decide (m = quietMove)) && decide (s.st = .idle)

end Sys2Proof.Machine
end

