-- ==== Sys2Proof/Safety.lean ====
section
/-! DEFINITION. The terms claims are stated in: the spec's own formulas where the model computes in another way, the
supported range, the invariant every step keeps, the host's duties as premises, and the shape of a call on the wire. -/

namespace Sys2Proof

/-- `a -_N b` as R16 writes it: `(a - b) mod 2^N`. -/
def modSub (n a b : Nat) : Nat := (((a : Int) - (b : Int)) % (2 : Int) ^ n).toNat

/-- The supported range of `F_TICK` (R9). -/
def Config.supported (c : Config) : Prop := 2500000 ≤ c.fTick ∧ c.fTick < 2 ^ c.ccw

/-- `ticks` ticks last at least `T_RESET` (R14, R138): the duty of a host that wants two frames told apart. -/
def Config.separatesFrames (c : Config) (ticks : Nat) : Prop := c.tReset * c.fTick ≤ ticks * 1000000000

/-- A duration of `ticks` ticks is within `TOL_FAST` of the nominal `1 / divisor` seconds (R14, R102). The two differ by
`|ticks * divisor - F_TICK| / (F_TICK * divisor)` seconds. -/
def Config.withinTolerance (c : Config) (divisor ticks : Nat) : Prop :=
  ((ticks * divisor : Nat) - (c.fTick : Int)).natAbs * 1000000000 ≤ c.tolFast * (c.fTick * divisor)

namespace Machine

/-- `elapsed = now -_CCW REF` as R16 writes it. -/
def sinceRef (s : State) : Nat := modSub s.cfg.ccw s.ccount s.ref

/-- A move of the host reaches only for bytes, lines and operands that exist (R12, R41, R57). -/
def moveExists (c : Config) (m : HostMove) : Prop :=
  (∀ w ∈ m.memWrites, w.1 < 2 ^ c.aw) ∧ (∀ w ∈ m.pinWrites, w.1 < 2 ^ c.pinw) ∧
  (∀ w ∈ m.dirWrites, w.1 < 2 ^ c.pinw) ∧
  m.ports.cmdPin < 2 ^ c.pinw ∧ m.ports.cmdBase < 2 ^ c.aw ∧ m.ports.cmdLen < 2 ^ c.lenw

/-- Every register holds a value of its width (R17), memory lists bytes of the address space in its canonical form, and the
host's moves reach for things that exist. -/
structure InRange (s : State) : Prop where
  ccount : s.ccount < 2 ^ s.cfg.ccw
  ref : s.ref < 2 ^ s.cfg.ccw
  t0h : s.t0h < 2 ^ s.cfg.ccw
  t1h : s.t1h < 2 ^ s.cfg.ccw
  period : s.period < 2 ^ s.cfg.ccw
  tsel : s.tsel < 2 ^ s.cfg.ccw
  byteIdx : s.byteIdx < 2 ^ s.cfg.lenw
  pin : s.pin < 2 ^ s.cfg.pinw
  base : s.base < 2 ^ s.cfg.aw
  len : s.len < 2 ^ s.cfg.lenw
  gpioOut : s.gpioOut < 2 ^ s.cfg.npins
  gpioDir : s.gpioDir < 2 ^ s.cfg.npins
  memWf : s.mem.wf = true
  memFits : s.mem.fits s.cfg.aw = true
  host : ∀ m ∈ s.host, moveExists s.cfg m

/-- The invariants of R36, with R23's resting place of the cursor. Clauses (iii) and (iv) hold of every state because the
model refuses the foreign write that would break them (R116). -/
structure CallInv (s : State) : Prop where
  /-- R36 (i). -/
  busyIff : s.busy = true ↔ s.st ≠ .idle
  /-- R36 (ii). -/
  cursor : s.st = .waitCell ∨ s.st = .waitHigh → 1 ≤ s.len ∧ s.byteIdx < s.len
  /-- R36 (iii). -/
  high : s.st = .waitHigh → pinLevel s = true
  /-- R36 (iv): in `WAIT_CELL` past the first bit, and in `LATCH` after at least one cell, the block's last write to the pin
  in this call was 0. -/
  low : (s.st = .waitCell ∧ ¬(s.byteIdx = 0 ∧ s.bitIdx = 7)) ∨ (s.st = .latch ∧ s.len ≠ 0) → pinLevel s = false
  /-- R36 (v). -/
  durations : s.busy = true →
    s.t0h = t0hOf s.cfg s.mode ∧ s.t1h = t1hOf s.cfg s.mode ∧ s.period = periodOf s.cfg s.mode
  /-- R59: a build without the slow profile runs no slow call. -/
  singleRate : s.busy = true → s.cfg.dualRate = false → s.mode = .fast
  /-- R23: in `LATCH` the cursor of a call with `LEN >= 1` rests at `(LEN - 1, 0)`. -/
  resting : s.st = .latch → s.len ≠ 0 → s.byteIdx + 1 = s.len ∧ s.bitIdx = 0
  /-- Outside a call no line of a call has lacked its output (the model's own field, log 15). -/
  held : s.busy = false → s.outputHeld = true

/-- The invariant of the machine. -/
structure Inv (s : State) : Prop where
  range : InRange s
  call : CallInv s

/-- Nothing outside the block stops this tick: every write of the host reaches something that exists, and no other agent
writes the driven line while `BUSY = 1` (R116). -/
def Unhindered (s : State) : Prop := hostFault s = none ∧ foreignWrite s = false

/-- A command is sampled in this tick (R30, R73): `ST = IDLE`, `RST = 0`, `START = 1`. -/
def Accepts (s : State) : Prop :=
  s.st = .idle ∧ (currentMove s).ports.rst = false ∧ (currentMove s).ports.start = true

/-- The raising step of a cell is taken in this tick (R85). -/
def Raises (s : State) : Prop :=
  s.st = .waitCell ∧ (currentMove s).ports.rst = false ∧ s.period ≤ sinceRef s

/-- The lowering step of a cell is taken in this tick (R88). -/
def Lowers (s : State) : Prop :=
  s.st = .waitHigh ∧ (currentMove s).ports.rst = false ∧ s.tsel ≤ sinceRef s

/-- What a list of writes of one tick leaves at a place: the last of the writes there, or nothing. -/
def lastWrite {β : Type} (writes : List (Nat × β)) (a : Nat) : Option β := writes.reverse.lookup a

/-- One call: the build, the profile, the operands, and the buffer memory it reads. -/
structure Call where
  cfg : Config
  mode : Mode
  pin : Nat
  base : Nat
  len : Nat
  mem : Memory

/-- The data bit of cell `k` (R45): bit `7 - (k mod 8)` of buffer byte `k div 8`. -/
def Call.bit (call : Call) (k : Nat) : Bool :=
  (call.mem.read ((call.base + k / 8) % 2 ^ call.cfg.aw)).getLsbD (7 - k % 8)

/-- `T_k`: the high-duration target of cell `k` (section 3 of 41_bit_emission.md). -/
def Call.target (call : Call) (k : Nat) : Nat :=
  if call.bit k then t1hOf call.cfg call.mode else t0hOf call.cfg call.mode

/-- `PERIOD` of the call. -/
def Call.period (call : Call) : Nat := periodOf call.cfg call.mode

/-- The ticks the pin is high in cell `k` (R89). -/
def Call.highTicks (call : Call) (k : Nat) : Nat := max (call.target k) 1

/-- The ticks from the rise of cell `k` to the next rise, or to the return (R90). -/
def Call.cellTicks (call : Call) (k : Nat) : Nat := max call.period (call.highTicks k + 1)

/-- The ticks from the accept tick to the rise of cell `k`, and for `k = 8 * LEN` to the return (R83, R142). -/
def Call.rise (call : Call) : Nat → Nat
  | 0 => 2
  | k + 1 => call.rise k + call.cellTicks k

/-- The durations leave room in the counter (R100): the modular difference is the number of elapsed ticks. -/
def Call.fitsCounter (call : Call) : Prop :=
  max call.period (t1hOf call.cfg call.mode) + 1 < 2 ^ call.cfg.ccw ∧
  max call.period (t0hOf call.cfg call.mode) + 1 < 2 ^ call.cfg.ccw

/-- The premise of the laws R93 to R98 and R142, `1 <= T0H` and `T1H < PERIOD`. `T0H <= T1H` holds of every two quotients of
R62; it is said here for builds outside R9, where a duration may be free (log 16). -/
def Call.nominal (call : Call) : Prop :=
  1 ≤ t0hOf call.cfg call.mode ∧ t0hOf call.cfg call.mode ≤ t1hOf call.cfg call.mode ∧
  t1hOf call.cfg call.mode < call.period

/-- What the host may do during a call without touching it (R144): no reset, no foreign write to the pin (R134), no write to
the buffer (R137), and only bytes and lines that exist. The command ports may hold anything. -/
def Call.leaves (call : Call) (m : HostMove) : Prop :=
  m.ports.rst = false ∧
  (∀ w ∈ m.memWrites, w.1 < 2 ^ call.cfg.aw ∧ ∀ j < call.len, w.1 ≠ (call.base + j) % 2 ^ call.cfg.aw) ∧
  (∀ w ∈ m.pinWrites, w.1 < 2 ^ call.cfg.pinw ∧ w.1 ≠ call.pin) ∧
  (∀ w ∈ m.dirWrites, w.1 < 2 ^ call.cfg.pinw)

/-- The tick `s` accepts the command of `call` (R76, R77), and from this tick until the return the host leaves the call alone
(R134, R137, R144). What it does from the return tick on is not bound. -/
structure Call.Starts (call : Call) (s : State) : Prop where
  cfg : s.cfg = call.cfg
  mem : s.mem = call.mem
  st : s.st = .idle
  busy : s.busy = false
  held : s.outputHeld = true
  start : (currentMove s).ports.start = true
  mode : call.mode = effectiveMode s.cfg (currentMove s).ports.cmdMode
  pin : (currentMove s).ports.cmdPin = call.pin ∧ call.pin < 2 ^ call.cfg.pinw
  base : (currentMove s).ports.cmdBase = call.base ∧ call.base < 2 ^ call.cfg.aw
  len : (currentMove s).ports.cmdLen = call.len ∧ call.len < 2 ^ call.cfg.lenw
  alone : ∀ m ∈ s.host.take (call.rise (8 * call.len)), call.leaves m

/-- The states of the ticks from `s` on: the state `n` ticks later, where the machine has not stopped. -/
def stateAfter (n : Nat) (s : State) : Option State :=
  match Host.Core.run Sys2Proof.core n s with
  | .next t => some t
  | .fault _ => none
  | .refused _ => none

/-- Named premise of the claims about the wire (R115, R129): `GPIO_DIR[p] = 1` in this tick and in every later one until
`BUSY` reads 0. From the accept tick of a call it says that the line is an output for the whole call. -/
def OutputUntilReturn (p : Nat) (s : State) : Prop :=
  ∀ (n : Nat) (t : State), stateAfter n s = some t →
    (∀ m, 1 ≤ m → m ≤ n → ∀ v, stateAfter m s = some v → v.busy = true) → lineLevel t.gpioDir p = true

/-- The level of a line `n` ticks after `s`; 0 where the machine has stopped. -/
def levelAfter (p n : Nat) (s : State) : Bool :=
  match stateAfter n s with
  | some t => lineLevel t.gpioOut p
  | none => false

/-- The rise ticks of a line among the ticks 1 to `n` after `s`: it reads 1 after reading 0. -/
def risesWithin (p n : Nat) (s : State) : Nat :=
  ((List.range n).filter fun j => !levelAfter p j s && levelAfter p (j + 1) s).length

/-- Two states that differ only in registers no later step reads before it writes them (R38, R39): in `IDLE` every data
register, before a byte's first cell `TSEL` and `PIX`, in `LATCH` the two as well. -/
def AgreeOnLive (s u : State) : Prop :=
  s.cfg = u.cfg ∧ s.ccount = u.ccount ∧ s.st = u.st ∧ s.busy = u.busy ∧ s.gpioOut = u.gpioOut ∧
  s.gpioDir = u.gpioDir ∧ s.outputHeld = u.outputHeld ∧ s.mem = u.mem ∧ s.host = u.host ∧ s.tick = u.tick ∧
  (s.st ≠ .idle →
    s.ref = u.ref ∧ s.t0h = u.t0h ∧ s.t1h = u.t1h ∧ s.period = u.period ∧ s.byteIdx = u.byteIdx ∧
    s.bitIdx = u.bitIdx ∧ s.pin = u.pin ∧ s.base = u.base ∧ s.len = u.len ∧ s.mode = u.mode) ∧
  (s.busy = true → s.pin = u.pin) ∧
  (s.st = .waitCell ∧ s.bitIdx ≠ 7 → s.pix = u.pix) ∧
  (s.st = .waitHigh → s.tsel = u.tsel ∧ s.pix = u.pix)

/-- Two outcomes of a step that agree: both a next state, related, or the same stop. -/
def OutcomesAgree (rel : State → State → Prop) :
    Host.Outcome State Fault Refusal → Host.Outcome State Fault Refusal → Prop
  | .next t, .next v => rel t v
  | .fault f, .fault g => f = g
  | .refused r, .refused q => r = q
  | .next _, .fault _ => False
  | .next _, .refused _ => False
  | .fault _, .next _ => False
  | .fault _, .refused _ => False
  | .refused _, .next _ => False
  | .refused _, .fault _ => False

/-- Two states that differ only in where their counters stand (R100): the same distance between `CCOUNT` and `REF` while a
call is in progress, anything in `IDLE`, where no step reads `REF` before it writes it. -/
def AgreeUpToClock (s u : State) : Prop :=
  { u with ccount := s.ccount, ref := s.ref } = s ∧
  (s.st ≠ .idle → modSub s.cfg.ccw s.ccount s.ref = modSub u.cfg.ccw u.ccount u.ref)

end Machine

end Sys2Proof
end

