-- ==== Sys2Proof/Certificates/Slice0/Obligations.lean ====
section
/-! DEFINITION. The statements for the provers. Each is a rule of spec/ said of the model, in the spec's own formulas where
the model computes in another way (`modSub`, `sinceRef`, `Nat.ldiff`, `Call.rise`). -/

open Sys2Proof Sys2Proof.Machine

/-! ## Encoding -/

/-- Every operation whose operands fit its ports is what its encoding decodes to. -/
def Obligations.DecodeOfEncode : Prop :=
  ∀ (c : Config) (i : Instr), i.wf c = true → decode c (encode i) = .ok i

/-- Every encoding that decodes is the encoding of what it decodes to, which fits its ports. -/
def Obligations.EncodeOfDecode : Prop :=
  ∀ (c : Config) (e : Enc) (i : Instr), decode c e = .ok i → encode i = e ∧ i.wf c = true

/-- R70: no code of a format is reserved or illegal. Every encoding whose operands fit decodes, but for the command port
with `start = 0`, which presents no command (R57). -/
def Obligations.NoReservedEncoding : Prop :=
  ∀ (c : Config) (e : Enc), e.fits c = true →
    (∃ i, decode c e = .ok i) ∨ ∃ mode pin len base, e = .cmd false mode pin len base

/-- Words of the opcode table, written out: a command of each profile (programs P1 and P2), the four codes of `ST`, both
codes of `CELL` and of `LVL`, and the reset input. -/
def Obligations.SpecWordsDecode : Prop :=
  decode Config.standard (.cmd true true 0x5 1 0x100) = .ok (.txFast 5 0x100 1) ∧
  decode Config.standard (.cmd true false 0x2 2 0x2000) = .ok (.txSlow 2 0x2000 2) ∧
  decode Config.standard (.st false false) = .ok .idle ∧
  decode Config.standard (.st false true) = .ok .cellwait ∧
  decode Config.standard (.st true false) = .ok .highwait ∧
  decode Config.standard (.st true true) = .ok .latchwait ∧
  decode Config.standard (.cell false) = .ok .sym0 ∧
  decode Config.standard (.cell true) = .ok .sym1 ∧
  decode Config.standard (.lvl false 15) = .ok (.pinclr 15) ∧
  decode Config.standard (.lvl true 5) = .ok (.pinset 5) ∧
  decode Config.standard (.bare true) = .ok .rst

/-! ## The step -/

/-- When the tick's selector decodes to an operation and nothing outside stops the tick, the step is the operation, followed
by the host's writes of the tick (the model's reading of when they are seen: log 12). -/
def Obligations.StepRunsDecoded : Prop :=
  ∀ (s : State) (i : Instr), Unhindered s → decode s.cfg (selector s) = .ok i →
    step s = afterOperation (currentMove s) (exec i s)

/-- R73, R111: which operation a tick takes. That the host's writes of the tick follow the operation, and that in a reset tick
every line is 0 after them, is the model's reading (logs 12 and 13). -/
def Obligations.TickSelection : Prop :=
  ∀ s : State, Unhindered s →
    let p := (currentMove s).ports
    let runs := fun i => step s = afterOperation (currentMove s) (exec i s)
    (p.rst = true → runs .rst) ∧
    (p.rst = false → s.st = .idle → p.start = false → runs .idle) ∧
    (p.rst = false → s.st = .idle → p.start = true →
      p.cmdPin < 2 ^ s.cfg.pinw → p.cmdBase < 2 ^ s.cfg.aw → p.cmdLen < 2 ^ s.cfg.lenw →
      (p.cmdMode = .fast → runs (.txFast p.cmdPin p.cmdBase p.cmdLen)) ∧
      (p.cmdMode = .slow → runs (.txSlow p.cmdPin p.cmdBase p.cmdLen))) ∧
    (p.rst = false → s.st = .waitCell → runs .cellwait) ∧
    (p.rst = false → s.st = .waitHigh → runs .highwait) ∧
    (p.rst = false → s.st = .latch → runs .latchwait)

/-- R105: no operation raises anything. Every operation, in every state and with every operand, yields a next state. -/
def Obligations.EveryOperationCompletes : Prop :=
  ∀ (i : Instr) (s : State), ∃ t, exec i s = .next t

/-- R73: the step function is total. In every state that meets the invariant, and in which no other agent writes the driven
line while `BUSY = 1`, the step yields a next state. -/
def Obligations.StepIsTotal : Prop :=
  ∀ s : State, Inv s → foreignWrite s = false → ∃ t, step s = .next t

/-- R74: the counter counts in every tick, whatever the tick does. -/
def Obligations.CounterCountsEveryTick : Prop :=
  ∀ s t : State, step s = .next t → t.ccount = (s.ccount + 1) % 2 ^ s.cfg.ccw

/-- R80: `CCREAD` returns the counter of the current tick and has no side effect; and two reads `n` ticks apart differ by
`n mod 2^CCW`, whatever the block did and however often the counter wrapped. -/
def Obligations.CounterRead : Prop :=
  ∀ s : State, exec .ccread s = .next s ∧ ccRead s = s.ccount ∧
    ∀ (n : Nat) (t : State), stateAfter n s = some t →
      modSub s.cfg.ccw (ccRead t) (ccRead s) = n % 2 ^ s.cfg.ccw

/-- R25: every control transfer with its condition. -/
def Obligations.SequencingTransfers : Prop :=
  ∀ s t : State, step s = .next t →
    let p := (currentMove s).ports
    t.st =
      if p.rst = true then .idle
      else match s.st with
        | .idle => if p.start = true then (if p.cmdLen = 0 then .latch else .waitCell) else .idle
        | .waitCell => if s.period ≤ sinceRef s then .waitHigh else .waitCell
        | .waitHigh =>
          if s.tsel ≤ sinceRef s then
            (if s.bitIdx = 0 ∧ (s.byteIdx + 1) % 2 ^ s.cfg.lenw = s.len then .latch else .waitCell)
          else .waitHigh
        | .latch => if s.period ≤ sinceRef s then .idle else .latch

/-- R26: `BUSY` is written to 1 by the accept step, to 0 by the returning `LATCH` step and by reset, and by nothing else. -/
def Obligations.BusyWriters : Prop :=
  ∀ s t : State, step s = .next t →
    (Accepts s → t.busy = true) ∧
    ((currentMove s).ports.rst = true → t.busy = false) ∧
    ((currentMove s).ports.rst = false → s.st = .latch → s.period ≤ sinceRef s → t.busy = false) ∧
    ((currentMove s).ports.rst = false → ¬ Accepts s → ¬ (s.st = .latch ∧ s.period ≤ sinceRef s) → t.busy = s.busy)

/-- R19 to R24: which ticks without reset write which data register. -/
def Obligations.DataRegisterWriters : Prop :=
  ∀ s t : State, step s = .next t → (currentMove s).ports.rst = false →
    (¬ Accepts s → t.t0h = s.t0h ∧ t.t1h = s.t1h ∧ t.period = s.period ∧
      t.pin = s.pin ∧ t.base = s.base ∧ t.len = s.len ∧ t.mode = s.mode) ∧
    (¬ Accepts s → ¬ Raises s → t.ref = s.ref) ∧
    (¬ Raises s → t.tsel = s.tsel ∧ t.pix = s.pix) ∧
    (¬ Accepts s → ¬ Lowers s → t.byteIdx = s.byteIdx ∧ t.bitIdx = s.bitIdx)

/-- R30, R79, R136: in a tick that accepts no command, whatever stands on the command ports, the same step results: nothing
is remembered of it. -/
def Obligations.PortsReadOnlyAtAccept : Prop :=
  ∀ (s : State) (m : HostMove) (rest : List HostMove) (p q : Ports), p.rst = q.rst →
    (p.rst = true ∨ s.st ≠ .idle ∨ (p.start = false ∧ q.start = false)) →
    step { s with host := { m with ports := p } :: rest } = step { s with host := { m with ports := q } :: rest }

/-! ## Results of the operations -/

/-- R75: `IDLE` changes nothing but the counter. -/
def Obligations.IdleOnlyCounts : Prop :=
  ∀ s : State, exec .idle s = .next { s with ccount := (s.ccount + 1) % 2 ^ s.cfg.ccw }

/-- R76, R78: the fast profile in `IDLE`: `TX.FAST`, and in a single-rate build `TX.SLOW` as well. -/
def Obligations.FastCommandAccepted : Prop :=
  ∀ (s : State) (i : Instr) (pin base len : Nat),
    (i = .txFast pin base len ∨ (i = .txSlow pin base len ∧ s.cfg.dualRate = false)) →
    s.st = .idle → s.cfg.fTick < 2 ^ s.cfg.ccw →
    exec i s = .next
      { s with
        pin := pin, base := base, len := len, mode := .fast,
        t0h := s.cfg.fTick / 2500000, t1h := s.cfg.fTick / 1250000, period := s.cfg.fTick / 800000,
        ref := modSub s.cfg.ccw s.ccount (s.cfg.fTick / 800000),
        byteIdx := 0, bitIdx := 7, busy := true,
        st := if len = 0 then .latch else .waitCell,
        ccount := (s.ccount + 1) % 2 ^ s.cfg.ccw }

/-- R77, R78: `TX.SLOW` in `IDLE`, in a build with both profiles. -/
def Obligations.SlowCommandAccepted : Prop :=
  ∀ (s : State) (pin base len : Nat), s.st = .idle → s.cfg.fTick < 2 ^ s.cfg.ccw → s.cfg.dualRate = true →
    exec (.txSlow pin base len) s = .next
      { s with
        pin := pin, base := base, len := len, mode := .slow,
        t0h := s.cfg.fTick / 2000000, t1h := s.cfg.fTick / 833333, period := s.cfg.fTick / 400000,
        ref := modSub s.cfg.ccw s.ccount (s.cfg.fTick / 400000),
        byteIdx := 0, bitIdx := 7, busy := true,
        st := if len = 0 then .latch else .waitCell,
        ccount := (s.ccount + 1) % 2 ^ s.cfg.ccw }

/-- R59: in a single-rate build the slow command is the fast one, and the latched mode is FAST. -/
def Obligations.SingleRateIgnoresMode : Prop :=
  ∀ (s : State) (pin base len : Nat), s.cfg.dualRate = false →
    exec (.txSlow pin base len) s = exec (.txFast pin base len) s ∧
    (s.st = .idle → ∃ t, exec (.txSlow pin base len) s = .next t ∧ t.mode = .fast)

/-- R79: a command presented while a call is in progress has no effect: the micro-operation of `ST` is all that happens. -/
def Obligations.CommandIgnoredWhileBusy : Prop :=
  ∀ (s : State) (pin base len : Nat),
    (s.st = .waitCell →
      exec (.txFast pin base len) s = exec .cellwait s ∧ exec (.txSlow pin base len) s = exec .cellwait s) ∧
    (s.st = .waitHigh →
      exec (.txFast pin base len) s = exec .highwait s ∧ exec (.txSlow pin base len) s = exec .highwait s) ∧
    (s.st = .latch →
      exec (.txFast pin base len) s = exec .latchwait s ∧ exec (.txSlow pin base len) s = exec .latchwait s)

/-- R85, R69: `CELLWAIT` spins until the period is over, then raises, captures, reads, tests and selects in one tick. -/
def Obligations.CellwaitSpinsThenRaises : Prop :=
  ∀ s : State,
    (sinceRef s < s.period → exec .cellwait s = .next { s with ccount := (s.ccount + 1) % 2 ^ s.cfg.ccw }) ∧
    (s.period ≤ sinceRef s →
      ∀ b : Byte,
        (s.bitIdx = 7 → b = s.mem.read ((s.base + s.byteIdx) % 2 ^ s.cfg.aw) ∧
          ∀ w ∈ (currentMove s).memWrites, w.1 ≠ (s.base + s.byteIdx) % 2 ^ s.cfg.aw) →
        (s.bitIdx ≠ 7 → b = s.pix) →
        exec .cellwait s = .next
          { s with
            gpioOut := s.gpioOut ||| (1 <<< s.pin), ref := s.ccount, pix := b,
            tsel := if b.getLsbD s.bitIdx.val then s.t1h else s.t0h,
            st := .waitHigh, ccount := (s.ccount + 1) % 2 ^ s.cfg.ccw })

/-- R88, R92: `HIGHWAIT` spins until the target is reached, then lowers the pin and advances the cursor. -/
def Obligations.HighwaitSpinsThenLowers : Prop :=
  ∀ s : State,
    (sinceRef s < s.tsel → exec .highwait s = .next { s with ccount := (s.ccount + 1) % 2 ^ s.cfg.ccw }) ∧
    (s.tsel ≤ sinceRef s →
      (s.bitIdx ≠ 0 → exec .highwait s = .next
        { s with
          gpioOut := Nat.ldiff s.gpioOut (1 <<< s.pin), bitIdx := s.bitIdx - 1,
          st := .waitCell, ccount := (s.ccount + 1) % 2 ^ s.cfg.ccw }) ∧
      (s.bitIdx = 0 → (s.byteIdx + 1) % 2 ^ s.cfg.lenw ≠ s.len → exec .highwait s = .next
        { s with
          gpioOut := Nat.ldiff s.gpioOut (1 <<< s.pin), byteIdx := (s.byteIdx + 1) % 2 ^ s.cfg.lenw,
          bitIdx := 7, st := .waitCell, ccount := (s.ccount + 1) % 2 ^ s.cfg.ccw }) ∧
      (s.bitIdx = 0 → (s.byteIdx + 1) % 2 ^ s.cfg.lenw = s.len → exec .highwait s = .next
        { s with
          gpioOut := Nat.ldiff s.gpioOut (1 <<< s.pin),
          st := .latch, ccount := (s.ccount + 1) % 2 ^ s.cfg.ccw }))

/-- R91: `LATCHWAIT` spins until the period is over, then returns; the pin is not written. -/
def Obligations.LatchwaitSpinsThenReturns : Prop :=
  ∀ s : State,
    (sinceRef s < s.period → exec .latchwait s = .next { s with ccount := (s.ccount + 1) % 2 ^ s.cfg.ccw }) ∧
    (s.period ≤ sinceRef s → exec .latchwait s = .next
      { s with busy := false, st := .idle, ccount := (s.ccount + 1) % 2 ^ s.cfg.ccw })

/-- R86, R87: the symbols select the high-duration target, and the raising `CELLWAIT` step selects by the cursor's bit of
the byte it latches. -/
def Obligations.SymbolsSelectTarget : Prop :=
  ∀ s : State,
    exec .sym0 s = .next { s with tsel := s.t0h } ∧
    exec .sym1 s = .next { s with tsel := s.t1h } ∧
    (s.period ≤ sinceRef s → ∃ t, exec .cellwait s = .next t ∧
      ∃ v, exec (if t.pix.getLsbD s.bitIdx.val then .sym1 else .sym0) s = .next v ∧ t.tsel = v.tsel)

/-- R81, R82: the pin-write primitives write one line and leave every other; the raising and the lowering step drive the
line `PIN` by them, and no other tick without reset writes a line, but for the host's own writes. -/
def Obligations.PinWritesOneLine : Prop :=
  ∀ (s : State) (p : Nat),
    (∃ g, exec (.pinset p) s = .next { s with gpioOut := g } ∧ g = s.gpioOut ||| (1 <<< p) ∧
      ∀ q, lineLevel g q = if q = p then true else lineLevel s.gpioOut q) ∧
    (∃ g, exec (.pinclr p) s = .next { s with gpioOut := g } ∧ g = Nat.ldiff s.gpioOut (1 <<< p) ∧
      ∀ q, lineLevel g q = if q = p then false else lineLevel s.gpioOut q) ∧
    (s.period ≤ sinceRef s → ∃ t v, exec .cellwait s = .next t ∧ exec (.pinset s.pin) s = .next v ∧
      t.gpioOut = v.gpioOut) ∧
    (s.tsel ≤ sinceRef s → ∃ t v, exec .highwait s = .next t ∧ exec (.pinclr s.pin) s = .next v ∧
      t.gpioOut = v.gpioOut) ∧
    (∀ t, step s = .next t → (currentMove s).ports.rst = false → (currentMove s).pinWrites = [] →
      ¬ Raises s → ¬ Lowers s → t.gpioOut = s.gpioOut)

/-- R125: the reset step, whatever `ST` is and whatever else is sampled: the operation itself, and the tick that takes it. That
every line is 0 after that tick even where another agent writes one in it is the model's reading of R37 (log 13). -/
def Obligations.ResetStep : Prop :=
  ∀ s : State,
    (∃ t, exec .rst s = .next t ∧ t.st = .idle ∧ t.busy = false ∧ t.gpioOut = 0 ∧
      t.ccount = (s.ccount + 1) % 2 ^ s.cfg.ccw) ∧
    (Unhindered s → (currentMove s).ports.rst = true →
      ∃ t, step s = .next t ∧ t.st = .idle ∧ t.busy = false ∧ t.gpioOut = 0 ∧
        t.ccount = (s.ccount + 1) % 2 ^ s.cfg.ccw)

/-! ## Frames -/

/-- What no operation changes: the parameters, `GPIO_DIR`, every byte of the buffer memory (the block never writes it, R43),
the host's queue, and the model's own fields that number the tick and follow the call's line. -/
def Obligations.OutsideUnchanged : Prop :=
  ∀ (i : Instr) (s t : State), exec i s = .next t →
    t.cfg = s.cfg ∧ t.gpioDir = s.gpioDir ∧ t.outputHeld = s.outputHeld ∧
    (∀ a, t.mem.read a = s.mem.read a) ∧ t.host = s.host ∧ t.tick = s.tick

/-- R27: which lines of `GPIO_OUT` an operation leaves. -/
def Obligations.OtherLinesUnchanged : Prop :=
  ∀ (i : Instr) (s t : State), exec i s = .next t → ∀ q : Nat,
    match i with
    | .txFast _ _ _ => (s.st = .idle ∨ q ≠ s.pin) → lineLevel t.gpioOut q = lineLevel s.gpioOut q
    | .txSlow _ _ _ => (s.st = .idle ∨ q ≠ s.pin) → lineLevel t.gpioOut q = lineLevel s.gpioOut q
    | .idle => lineLevel t.gpioOut q = lineLevel s.gpioOut q
    | .cellwait => q ≠ s.pin → lineLevel t.gpioOut q = lineLevel s.gpioOut q
    | .highwait => q ≠ s.pin → lineLevel t.gpioOut q = lineLevel s.gpioOut q
    | .latchwait => lineLevel t.gpioOut q = lineLevel s.gpioOut q
    | .sym0 => lineLevel t.gpioOut q = lineLevel s.gpioOut q
    | .sym1 => lineLevel t.gpioOut q = lineLevel s.gpioOut q
    | .pinclr p => q ≠ p → lineLevel t.gpioOut q = lineLevel s.gpioOut q
    | .pinset p => q ≠ p → lineLevel t.gpioOut q = lineLevel s.gpioOut q
    | .ccread => lineLevel t.gpioOut q = lineLevel s.gpioOut q
    | .rst => lineLevel t.gpioOut q = false

/-- R40: the registers each micro-operation of a call leaves. -/
def Obligations.MicroOperationFrames : Prop :=
  ∀ s t : State,
    (exec .cellwait s = .next t →
      t.t0h = s.t0h ∧ t.t1h = s.t1h ∧ t.period = s.period ∧ t.byteIdx = s.byteIdx ∧ t.bitIdx = s.bitIdx ∧
      t.pin = s.pin ∧ t.base = s.base ∧ t.len = s.len ∧ t.mode = s.mode ∧ t.busy = s.busy) ∧
    (exec .highwait s = .next t →
      t.ref = s.ref ∧ t.t0h = s.t0h ∧ t.t1h = s.t1h ∧ t.period = s.period ∧ t.tsel = s.tsel ∧ t.pix = s.pix ∧
      t.pin = s.pin ∧ t.base = s.base ∧ t.len = s.len ∧ t.mode = s.mode ∧ t.busy = s.busy) ∧
    (exec .latchwait s = .next t →
      t.ref = s.ref ∧ t.t0h = s.t0h ∧ t.t1h = s.t1h ∧ t.period = s.period ∧ t.tsel = s.tsel ∧ t.pix = s.pix ∧
      t.byteIdx = s.byteIdx ∧ t.bitIdx = s.bitIdx ∧ t.pin = s.pin ∧ t.base = s.base ∧ t.len = s.len ∧
      t.mode = s.mode ∧ t.gpioOut = s.gpioOut)

/-! ## Memory and the host's writes -/

/-- R22, R53: below bit 7 the byte comes from `PIX`: the step is the same whatever the memory holds. -/
def Obligations.LatchedByteServesLowerBits : Prop :=
  ∀ (s t : State) (m : Memory), s.bitIdx ≠ 7 → exec .cellwait s = .next t →
    exec .cellwait { s with mem := m } = .next { t with mem := m }

/-- R53, U3: a buffer byte that the host writes in the very tick it is read is read old or new; which is the model's free
choice (log 14). -/
def Obligations.RacingReadOldOrNew : Prop :=
  ∀ (s : State) (b : Byte), s.bitIdx = 7 → s.period ≤ sinceRef s →
    lastWrite (currentMove s).memWrites ((s.base + s.byteIdx) % 2 ^ s.cfg.aw) = some b →
    ∃ t, exec .cellwait s = .next t ∧
      (t.pix = b ∨ t.pix = s.mem.read ((s.base + s.byteIdx) % 2 ^ s.cfg.aw))

/-- R53, R116: the host's writes of a tick stand from the next tick on, the last to each place (the model's reading, logs 12
and 20): every byte, every bit of `GPIO_DIR`, and, without reset, every line of `GPIO_OUT`, the line `PIN` among them in
every tick in which the block neither raises nor lowers it, and the line of a command in its accept tick. -/
def Obligations.HostWritesLandNextTick : Prop :=
  ∀ s t : State, step s = .next t → s.mem.wf = true →
    (∀ a, t.mem.read a = (lastWrite (currentMove s).memWrites a).getD (s.mem.read a)) ∧
    (∀ q, lineLevel t.gpioDir q = (lastWrite (currentMove s).dirWrites q).getD (lineLevel s.gpioDir q)) ∧
    ((currentMove s).ports.rst = false → ∀ q, (q ≠ s.pin ∨ (¬ Raises s ∧ ¬ Lowers s)) →
      lineLevel t.gpioOut q = (lastWrite (currentMove s).pinWrites q).getD (lineLevel s.gpioOut q))

/-- R116: a write to the driven line by another agent in a tick with `BUSY = 1` is refused. A write to another line, or with
`BUSY = 0`, is admitted: the step answers a next state, where the operands it samples fit their ports. That the refusal
comes before a reset sampled in the same tick is the model's reading (log 21). -/
def Obligations.ForeignPinWriteRefused : Prop :=
  ∀ s : State, hostFault s = none →
    (step s = .refused .foreignPinWrite ↔
      s.busy = true ∧ ∃ w ∈ (currentMove s).pinWrites, w.1 = s.pin) ∧
    (¬ (s.busy = true ∧ ∃ w ∈ (currentMove s).pinWrites, w.1 = s.pin) →
      (Accepts s → (currentMove s).ports.cmdPin < 2 ^ s.cfg.pinw ∧ (currentMove s).ports.cmdBase < 2 ^ s.cfg.aw ∧
        (currentMove s).ports.cmdLen < 2 ^ s.cfg.lenw) →
      ∃ t, step s = .next t)

/-- The model's own edge (log 17): a host move that writes a byte outside the `2^AW` addresses, or a line that is not there,
stops the machine by name. -/
def Obligations.AbsentPlacesFault : Prop :=
  ∀ s : State,
    ((∃ w ∈ (currentMove s).memWrites, 2 ^ s.cfg.aw ≤ w.1) → step s = .fault .noSuchAddress) ∧
    ((∀ w ∈ (currentMove s).memWrites, w.1 < 2 ^ s.cfg.aw) →
      (∃ w ∈ (currentMove s).pinWrites ++ (currentMove s).dirWrites, 2 ^ s.cfg.pinw ≤ w.1) →
      step s = .fault .noSuchLine)

/-! ## The wire -/

/-- R29, R34, R115: the wire of an output line that no call of this tick drives is its bit of `GPIO_OUT`. Under the named
premise that `GPIO_DIR[PIN] = 1` for the whole call (the ticks before: `outputHeld`; from this one on: `OutputUntilReturn`),
so is the wire of `PIN`, and the level a raising or a lowering step writes is on it one tick later. -/
def Obligations.WireFollowsWrite : Prop :=
  ∀ s : State,
    (∀ q, lineLevel s.gpioDir q = true → callLine s ≠ some q → wire s q = lineLevel s.gpioOut q) ∧
    (s.busy = true → s.outputHeld = true → OutputUntilReturn s.pin s →
      wire s s.pin = lineLevel s.gpioOut s.pin ∧
      ∀ t, step s = .next t →
        (t.busy = true → wire t s.pin = lineLevel t.gpioOut s.pin) ∧
        (Raises s → wire t s.pin = true) ∧
        (Lowers s → wire t s.pin = false))

/-- R115, R28: the block neither reads nor writes `GPIO_DIR`. In every tick of a call, from the accept tick to the one before
the return, the wire of its line is the bit of `GPIO_OUT` if the line is an output for the whole call, and a free value if
it is not, be it in one tick only. Which ticks are the call's is the model's reading of R129 (log 15). -/
def Obligations.CallWire : Prop :=
  (∀ (i : Instr) (s t : State) (d : Nat), exec i s = .next t →
    t.gpioDir = s.gpioDir ∧ exec i { s with gpioDir := d } = .next { t with gpioDir := d }) ∧
  ∀ (call : Call) (s : State), call.Starts s → call.fitsCounter → ∀ n < call.rise (8 * call.len),
    ∃ t, stateAfter n s = some t ∧
      (OutputUntilReturn call.pin s → wire t call.pin = lineLevel t.gpioOut call.pin) ∧
      (¬ OutputUntilReturn call.pin s → wire t call.pin = Config.freeWire t.tick call.pin)

/-- R93, R94 on the wire (R29): under the named premise that the line is an output for the whole call, where `1 <= T0H` and
`T1H < PERIOD`, the wire reads 1 for exactly `T_k` ticks from the rise of cell `k` and 0 until the next. -/
def Obligations.PulsesOnWire : Prop :=
  ∀ (call : Call) (s : State), call.Starts s → call.fitsCounter → call.nominal → OutputUntilReturn call.pin s →
    ∀ k < 8 * call.len, ∀ j < call.period,
      ∃ t, stateAfter (2 + k * call.period + j) s = some t ∧ wire t call.pin = decide (j < call.target k)

/-! ## Durations -/

/-- R62, R63: the six durations, floor quotients of the tick frequency. -/
def Obligations.DurationTable : Prop :=
  ∀ c : Config, c.fTick < 2 ^ c.ccw →
    t0hOf c .fast = c.fTick / 2500000 ∧ t1hOf c .fast = c.fTick / 1250000 ∧ periodOf c .fast = c.fTick / 800000 ∧
    t0hOf c .slow = c.fTick / 2000000 ∧ t1hOf c .slow = c.fTick / 833333 ∧ periodOf c .slow = c.fTick / 400000

/-- R66: in the supported range and in both modes, `1 <= T0H < T1H < PERIOD`. -/
def Obligations.DurationsStrictlyOrdered : Prop :=
  ∀ (c : Config) (m : Mode), c.supported → 1 ≤ t0hOf c m ∧ t0hOf c m < t1hOf c m ∧ t1hOf c m < periodOf c m

/-- R102: every duration is shorter than the nominal one by less than one tick, and so within the fast mode's tolerance
whenever one tick is no longer than the tolerance. -/
def Obligations.QuantisationBelowOneTick : Prop :=
  ∀ (c : Config) (m : Mode), c.supported →
    (t0hOf c m * t0hDivisor m ≤ c.fTick ∧ c.fTick < (t0hOf c m + 1) * t0hDivisor m) ∧
    (t1hOf c m * t1hDivisor m ≤ c.fTick ∧ c.fTick < (t1hOf c m + 1) * t1hDivisor m) ∧
    (periodOf c m * periodDivisor m ≤ c.fTick ∧ c.fTick < (periodOf c m + 1) * periodDivisor m) ∧
    (1000000000 ≤ c.tolFast * c.fTick →
      c.withinTolerance (t0hDivisor m) (t0hOf c m) ∧ c.withinTolerance (t1hDivisor m) (t1hOf c m))

/-- R66, R100: for `F_TICK < 2^CCW` the rules' own premise `1 <= T0H`, `T1H < PERIOD` is all that the laws of whole calls
ask of the durations, and every call in the supported range meets it. -/
def Obligations.NominalCalls : Prop :=
  ∀ call : Call, call.cfg.fTick < 2 ^ call.cfg.ccw →
    (1 ≤ t0hOf call.cfg call.mode → t1hOf call.cfg call.mode < call.period → call.nominal ∧ call.fitsCounter) ∧
    (call.cfg.supported → call.nominal ∧ call.fitsCounter)

/-! ## Invariants -/

/-- After reset (R37, R126): `IDLE`, not busy, every line 0; and the invariant holds, with the model's values of the other
registers, the parameters, `GPIO_DIR` and the memory (logs 1, 2, 4 and 5). -/
def Obligations.ResetIsCleanEntry : Prop :=
  State.reset.st = .idle ∧ State.reset.busy = false ∧ State.reset.gpioOut = 0 ∧ Inv State.reset

/-- R36: every step keeps the invariant, from every state that meets it. -/
def Obligations.StepKeepsInvariant : Prop :=
  ∀ s t : State, Inv s → step s = .next t → Inv t

/-- R32: no step changes the parameters. -/
def Obligations.StepKeepsConfig : Prop :=
  ∀ s t : State, step s = .next t → t.cfg = s.cfg

/-! ## Whole calls

The host leaves the call alone from the accept tick until the return (`Call.Starts`, R134, R137); what it does from the
return on is not bound. -/

/-- R89, R90, R92: the shape of every cell of a call, at every tick frequency at which the durations fit the counter. In
cell `k` the pin reads 1 for exactly `max(T_k, 1)` ticks from the rise and 0 for the rest of the cell, `BUSY` reads 1, and
while the pin is high the cursor is at `(k div 8, 7 - (k mod 8))`. The cell is `max(PERIOD, T' + 1)` ticks long: after
them comes the high phase of the next cell, or, for the last cell, the return. -/
def Obligations.CellShape : Prop :=
  ∀ (call : Call) (s : State), call.Starts s → call.fitsCounter →
    ∀ k < 8 * call.len,
      (∀ j < call.cellTicks k,
        ∃ t, stateAfter (call.rise k + j) s = some t ∧ t.busy = true ∧
          lineLevel t.gpioOut call.pin = decide (j < call.highTicks k) ∧
          (j < call.highTicks k → t.st = .waitHigh ∧ t.byteIdx = k / 8 ∧ t.bitIdx.val = 7 - k % 8)) ∧
      ∃ t, stateAfter (call.rise k + call.cellTicks k) s = some t ∧
        if k + 1 < 8 * call.len then t.st = .waitHigh ∧ lineLevel t.gpioOut call.pin = true
        else t.st = .idle ∧ t.busy = false

/-- R93, R94, R95: the schedule where `1 <= T0H` and `T1H < PERIOD`. The rise of cell `k` is `2 + k * PERIOD` ticks after the
accept tick; the pin reads 1 for exactly `T_k` ticks from there and 0 until the next rise; from the rise on `REF` is the
counter of the accept tick plus `1 + k * PERIOD`; and byte `i` of the buffer is read `1 + 8 * i * PERIOD` ticks after the
accept tick. -/
def Obligations.PulseSchedule : Prop :=
  ∀ (call : Call) (s : State), call.Starts s → call.fitsCounter → call.nominal →
    (∀ k < 8 * call.len, ∀ j < call.period,
      ∃ t, stateAfter (2 + k * call.period + j) s = some t ∧
        lineLevel t.gpioOut call.pin = decide (j < call.target k) ∧
        t.ref = (s.ccount + (1 + k * call.period)) % 2 ^ s.cfg.ccw) ∧
    ∀ i < call.len,
      ∃ t, stateAfter (1 + 8 * i * call.period) s = some t ∧
        readAddress t = some ((call.base + i) % 2 ^ call.cfg.aw)

/-- R97, R142: the return, at every tick frequency at which the durations fit the counter, the empty call among them (R101):
`BUSY` reads 1 from the tick after accept until the return tick, and there the block is in `IDLE`. Where `1 <= T0H` and
`T1H < PERIOD` the return tick is `2 + 8 * LEN * PERIOD` ticks after the accept tick. -/
def Obligations.CallReturns : Prop :=
  ∀ (call : Call) (s : State), call.Starts s → call.fitsCounter →
    (∀ n, 1 ≤ n → n < call.rise (8 * call.len) → ∃ t, stateAfter n s = some t ∧ t.busy = true) ∧
    (∃ t, stateAfter (call.rise (8 * call.len)) s = some t ∧ t.st = .idle ∧ t.busy = false) ∧
    (call.nominal → call.rise (8 * call.len) = 2 + 8 * call.len * call.period)

/-- R98, where `1 <= T0H` and `T1H < PERIOD`: the last cell rises `PERIOD` ticks before the return; the pin reads 1 for its
`T_last` ticks, and at the return it has read 0 for exactly the `PERIOD - T_last` ticks since, the low phase of the last
cell and no more. -/
def Obligations.TrailingLowTime : Prop :=
  ∀ (call : Call) (s : State), call.Starts s → call.fitsCounter → call.nominal → 1 ≤ call.len →
    let last := 8 * call.len - 1
    let rise := 2 + 8 * call.len * call.period - call.period
    levelAfter call.pin (rise - 1) s = false ∧
    (∀ j < call.target last, levelAfter call.pin (rise + j) s = true) ∧
    (∀ j, call.target last ≤ j → j ≤ call.period → levelAfter call.pin (rise + j) s = false) ∧
    ∃ t, stateAfter (rise + call.period) s = some t ∧ t.busy = false

/-- R101: an empty call: `BUSY` for one tick, no memory read, and no write to the pin, whose line keeps its level. -/
def Obligations.EmptyCall : Prop :=
  ∀ (call : Call) (s : State), call.Starts s → call.fitsCounter → call.len = 0 →
    ∃ t u, stateAfter 1 s = some t ∧ stateAfter 2 s = some u ∧
      t.busy = true ∧ t.st = .latch ∧ sinceRef t = t.period + 1 ∧ readAddress t = none ∧
      u.busy = false ∧ u.st = .idle ∧
      lineLevel t.gpioOut call.pin = lineLevel s.gpioOut call.pin ∧
      lineLevel u.gpioOut call.pin = lineLevel s.gpioOut call.pin

/-- R96: a call emits exactly `8 * LEN` pulses, provided the pin reads 0 in the tick after accept. -/
def Obligations.PulseCount : Prop :=
  ∀ (call : Call) (s : State), call.Starts s → call.fitsCounter → levelAfter call.pin 1 s = false →
    risesWithin call.pin (call.rise (8 * call.len)) s = 8 * call.len

/-- R48: byte `i` of the buffer is read in the tick before the rise of cell `8 * i`, and no other read happens in the call. -/
def Obligations.BytesReadOnce : Prop :=
  ∀ (call : Call) (s : State), call.Starts s → call.fitsCounter →
    ∀ n < call.rise (8 * call.len), ∃ t, stateAfter n s = some t ∧
      (∀ i < call.len, n + 1 = call.rise (8 * i) → readAddress t = some ((call.base + i) % 2 ^ call.cfg.aw)) ∧
      ((∀ i < call.len, n + 1 ≠ call.rise (8 * i)) → readAddress t = none)

/-! ## Independence -/

/-- R38, R84: two states that differ only in registers no later step reads before it writes them stay so, stop alike, and
look alike: no state of one call influences the next. -/
def Obligations.NoResidueOfEarlierCalls : Prop :=
  ∀ s u : State, AgreeOnLive s u → OutcomesAgree AgreeOnLive (step s) (step u) ∧ observe s = observe u

/-- R100: two states that differ only in where the counter stands stay so, stop alike, and look alike. -/
def Obligations.CounterValueImmaterial : Prop :=
  ∀ s u : State, AgreeUpToClock s u → OutcomesAgree AgreeUpToClock (step s) (step u) ∧ observe s = observe u
end

