-- ==== Sys2Proof/Laws/Arith.lean ====
section
/-! SUPPORT. The arithmetic of the counter and of the lines of a register. -/

namespace Sys2Proof.Machine

theorem two_pow_pos (n : Nat) : 0 < 2 ^ n := Nat.pow_pos (by decide)

theorem addMod_eq (n a b : Nat) : addMod n a b = (a + b) % 2 ^ n := rfl

theorem addMod_lt (n a b : Nat) : addMod n a b < 2 ^ n := Nat.mod_lt _ (two_pow_pos n)

theorem subMod_lt (n a b : Nat) : subMod n a b < 2 ^ n := Nat.mod_lt _ (two_pow_pos n)

/-- The model's subtraction is the one R16 writes. -/
theorem subMod_eq_modSub (n a b : Nat) : subMod n a b = modSub n a b := by
  have hpos := two_pow_pos n
  have hb := Nat.mod_lt b hpos
  unfold subMod modSub
  have hcast : ((2 : Int) ^ n) = ((2 ^ n : Nat) : Int) := by push_cast; rfl
  rw [hcast]
  generalize 2 ^ n = m at *
  have hz : (((a % m + (m - b % m)) % m : Nat) : Int) = ((a : Int) - b) % (m : Int) := by
    rw [Int.natCast_mod, Nat.cast_add, Nat.cast_sub (Nat.le_of_lt hb), Int.natCast_mod, Int.natCast_mod]
    rw [show (a : Int) % m + ((m : Int) - (b : Int) % m) = ((a : Int) % m - (b : Int) % m) + m by omega]
    rw [Int.add_emod_right, ← Int.sub_emod]
  omega

theorem modSub_lt (n a b : Nat) : modSub n a b < 2 ^ n := subMod_eq_modSub n a b ▸ subMod_lt n a b

theorem modSub_mod_left (n a b : Nat) : modSub n (a % 2 ^ n) b = modSub n a b := by
  simp only [modSub, Int.natCast_mod, Nat.cast_pow, Nat.cast_ofNat]
  rw [Int.emod_sub_emod]

theorem modSub_mod_right (n a b : Nat) : modSub n a (b % 2 ^ n) = modSub n a b := by
  simp only [modSub, Int.natCast_mod, Nat.cast_pow, Nat.cast_ofNat]
  rw [Int.sub_emod_emod]

/-- The difference of two counter values is the number of ticks between them, whatever the counter did. -/
theorem modSub_add (n r j : Nat) : modSub n (r + j) r = j % 2 ^ n := by
  have h : ((2 : Int) ^ n) = ((2 ^ n : Nat) : Int) := by push_cast; rfl
  simp only [modSub, h, Nat.cast_add, add_sub_cancel_left, ← Int.natCast_mod, Int.toNat_natCast]

theorem modSub_of_ticks (n r j : Nat) (h : j < 2 ^ n) : modSub n ((r + j) % 2 ^ n) (r % 2 ^ n) = j := by
  rw [modSub_mod_left, modSub_mod_right, modSub_add, Nat.mod_eq_of_lt h]

/-- A reference set a number of ticks into the past (R76). -/
theorem modSub_past (n a p k : Nat) : modSub n (a + k) (modSub n a p) = (p + k) % 2 ^ n := by
  have h : ((2 : Int) ^ n) = ((2 ^ n : Nat) : Int) := by push_cast; rfl
  have hn : (0 : Int) ≤ ((a : Int) - p) % (2 : Int) ^ n := Int.emod_nonneg _ (by positivity)
  have hk : ((a : Int) + k) - (a - p) = ((p + k : Nat) : Int) := by push_cast; ring
  unfold modSub
  rw [Int.toNat_of_nonneg hn, Int.sub_emod_emod, Nat.cast_add, hk, h, ← Int.natCast_mod, Int.toNat_natCast]

theorem elapsed_eq_sinceRef (s : State) : elapsed s = sinceRef s := subMod_eq_modSub _ _ _

theorem periodOver_iff (s : State) : periodOver s = true ↔ s.period ≤ sinceRef s := by
  simp [periodOver, elapsed_eq_sinceRef]

theorem periodOver_false_iff (s : State) : periodOver s = false ↔ sinceRef s < s.period := by
  simp [periodOver, elapsed_eq_sinceRef]

theorem highOver_iff (s : State) : highOver s = true ↔ s.tsel ≤ sinceRef s := by
  simp [highOver, elapsed_eq_sinceRef]

theorem highOver_false_iff (s : State) : highOver s = false ↔ sinceRef s < s.tsel := by
  simp [highOver, elapsed_eq_sinceRef]

/-- One line is written and every other is left. -/
theorem lineLevel_setLine (g p q : Nat) (b : Bool) :
    lineLevel (setLine g p b) q = if q = p then b else lineLevel g q := by
  cases b
  · simp only [setLine, lineLevel, Nat.testBit_xor, Nat.testBit_and, Nat.one_shiftLeft, Nat.testBit_two_pow]
    by_cases h : q = p
    · subst h; simp
    · have : ¬ p = q := fun e => h e.symm
      simp [h, this]
  · simp only [setLine, lineLevel, Nat.testBit_or, Nat.one_shiftLeft, Nat.testBit_two_pow]
    by_cases h : q = p
    · subst h; simp
    · have : ¬ p = q := fun e => h e.symm
      simp [h, this]

theorem setLine_lt (g p n : Nat) (b : Bool) (hg : g < 2 ^ n) (hp : p < n) : setLine g p b < 2 ^ n := by
  have h1 : 1 <<< p < 2 ^ n := by
    rw [Nat.one_shiftLeft]; exact Nat.pow_lt_pow_right (by decide) hp
  cases b
  · exact Nat.xor_lt_two_pow hg (Nat.and_lt_two_pow _ h1)
  · exact Nat.or_lt_two_pow hg h1

theorem setLines_lt (g n : Nat) (ws : List (Nat × Bool)) (hg : g < 2 ^ n) (h : ∀ w ∈ ws, w.1 < n) :
    setLines g ws < 2 ^ n := by
  induction ws generalizing g with
  | nil => exact hg
  | cons w ws ih =>
    exact ih _ (setLine_lt g w.1 n w.2 hg (h w (by simp))) fun v hv => h v (by simp [hv])

theorem lineLevel_setLines_of_ne (g q : Nat) (ws : List (Nat × Bool)) (h : ∀ w ∈ ws, w.1 ≠ q) :
    lineLevel (setLines g ws) q = lineLevel g q := by
  induction ws generalizing g with
  | nil => rfl
  | cons w ws ih =>
    have hw : q ≠ w.1 := fun e => h w (by simp) e.symm
    simp only [setLines]
    rw [ih _ fun v hv => h v (by simp [hv]), lineLevel_setLine, if_neg hw]

theorem zextCcw_lt (w n : Nat) : zextCcw w n < 2 ^ w := by
  unfold zextCcw; split
  · assumption
  · exact Nat.mod_lt _ (two_pow_pos w)

theorem zextCcw_of_lt (w n : Nat) (h : n < 2 ^ w) : zextCcw w n = n := by simp [zextCcw, h]

theorem zextCcw_div (w f d : Nat) (h : f < 2 ^ w) : zextCcw w (f / d) = f / d :=
  zextCcw_of_lt w _ (Nat.lt_of_le_of_lt (Nat.div_le_self f d) h)

theorem setLine_true (g p : Nat) : setLine g p true = g ||| (1 <<< p) := rfl

/-- Clearing a line is `lines & ~(1 << p)` as R82 writes it. -/
theorem setLine_false (g p : Nat) : setLine g p false = Nat.ldiff g (1 <<< p) := by
  apply Nat.eq_of_testBit_eq
  intro q
  have h := lineLevel_setLine g p q false
  simp only [lineLevel] at h
  rw [h, Nat.testBit_ldiff, Nat.one_shiftLeft, Nat.testBit_two_pow]
  by_cases h : q = p
  · subst h; simp
  · have : ¬ p = q := fun e => h e.symm
    simp [h, this]

/-- One tick of the counter is one tick of the elapsed time, modulo the width. -/
theorem sinceRef_countTick (u : State) : sinceRef (countTick u) = (sinceRef u + 1) % 2 ^ u.cfg.ccw := by
  show modSub u.cfg.ccw ((u.ccount + 1) % 2 ^ u.cfg.ccw) u.ref = _
  rw [modSub_mod_left]
  have hn : (0 : Int) ≤ ((u.ccount : Int) - u.ref) % (2 : Int) ^ u.cfg.ccw := Int.emod_nonneg _ (by positivity)
  apply Int.ofNat_inj.1
  simp only [sinceRef, modSub]
  rw [Int.toNat_of_nonneg (Int.emod_nonneg _ (by positivity))]
  push_cast
  rw [Int.toNat_of_nonneg hn, Int.emod_add_emod]
  congr 1
  ring

end Sys2Proof.Machine
end

