-- ==== Sys2Proof/Laws/Memory.lean ====
section
/-! SUPPORT. The buffer memory: a read after a write, and the canonical form kept by every operation. -/

namespace Sys2Proof.Machine

/-- Below the addresses a canonical list starts at, every byte is blank. -/
theorem Memory.read_of_lt {lo : Nat} {m : Memory} (h : Memory.wfFrom lo m = true) {a : Nat} (ha : a < lo) :
    m.read a = Config.blankByte := by
  induction m generalizing lo with
  | nil => rfl
  | cons cell rest ih =>
    obtain ⟨k, v⟩ := cell
    simp only [Memory.wfFrom, Bool.and_eq_true, decide_eq_true_eq] at h
    have : a ≠ k := by omega
    simp only [Memory.read, if_neg this]
    exact ih h.2 (by omega)

/-- A write leaves every other address, in every list. -/
theorem Memory.read_write_of_ne (m : Memory) {a a' : Nat} (b : Byte) (h : a' ≠ a) :
    (m.write a b).read a' = m.read a' := by
  induction m with
  | nil => simp only [Memory.write]; split <;> simp [Memory.read, h]
  | cons cell rest ih =>
    obtain ⟨k, v⟩ := cell
    simp only [Memory.write]
    split
    · next e => subst e; split <;> simp [Memory.read, h]
    · split
      · split <;> simp [Memory.read, h]
      · simp [Memory.read, ih]

theorem Memory.read_write_self_from {lo : Nat} {m : Memory} (hm : Memory.wfFrom lo m = true) (a : Nat) (b : Byte) :
    (m.write a b).read a = b := by
  induction m generalizing lo with
  | nil => simp only [Memory.write]; split <;> simp_all [Memory.read]
  | cons cell rest ih =>
    obtain ⟨k, v⟩ := cell
    simp only [Memory.wfFrom, Bool.and_eq_true, decide_eq_true_eq] at hm
    simp only [Memory.write]
    split
    · next e =>
      subst e
      split
      · next hb => rw [hb]; exact Memory.read_of_lt hm.2 (by omega)
      · simp [Memory.read]
    · next hne =>
      split
      · next hlt =>
        split
        · next hb =>
          simp only [Memory.read, if_neg hne, hb]
          exact Memory.read_of_lt hm.2 (by omega)
        · simp [Memory.read]
      · simp only [Memory.read, if_neg hne]
        exact ih hm.2

/-- A read after a write to the same place gives the byte written. -/
theorem Memory.read_write_self {m : Memory} (hm : m.wf = true) (a : Nat) (b : Byte) : (m.write a b).read a = b :=
  Memory.read_write_self_from hm a b

theorem Memory.write_wfFrom {lo : Nat} {m : Memory} (hm : Memory.wfFrom lo m = true) {a : Nat} (b : Byte) (ha : lo ≤ a) :
    Memory.wfFrom lo (m.write a b) = true := by
  induction m generalizing lo with
  | nil => simp only [Memory.write]; split <;> simp_all [Memory.wfFrom]
  | cons cell rest ih =>
    obtain ⟨k, v⟩ := cell
    simp only [Memory.wfFrom, Bool.and_eq_true, decide_eq_true_eq] at hm
    have weaken : ∀ {l : Nat} {r : Memory}, Memory.wfFrom l r = true → ∀ {l' : Nat}, l' ≤ l → Memory.wfFrom l' r = true := by
      intro l r hr l' hl
      cases r with
      | nil => rfl
      | cons c r =>
        obtain ⟨k', v'⟩ := c
        simp only [Memory.wfFrom, Bool.and_eq_true, decide_eq_true_eq] at hr ⊢
        exact ⟨⟨by omega, hr.1.2⟩, hr.2⟩
    simp only [Memory.write]
    split
    · next e =>
      subst e
      split
      · exact weaken hm.2 (by omega)
      · next hb =>
        simp only [Memory.wfFrom, Bool.and_eq_true, decide_eq_true_eq]
        exact ⟨⟨ha, hb⟩, hm.2⟩
    · next hne =>
      split
      · next hlt =>
        split
        · simp only [Memory.wfFrom, Bool.and_eq_true, decide_eq_true_eq]
          exact ⟨⟨hm.1.1, hm.1.2⟩, hm.2⟩
        · next hb =>
          simp only [Memory.wfFrom, Bool.and_eq_true, decide_eq_true_eq]
          exact ⟨⟨ha, hb⟩, ⟨⟨by omega, hm.1.2⟩, hm.2⟩⟩
      · simp only [Memory.wfFrom, Bool.and_eq_true, decide_eq_true_eq]
        exact ⟨⟨hm.1.1, hm.1.2⟩, ih hm.2 (by omega)⟩

/-- A write keeps the canonical form. -/
theorem Memory.write_wf {m : Memory} (hm : m.wf = true) (a : Nat) (b : Byte) : (m.write a b).wf = true :=
  Memory.write_wfFrom hm b (Nat.zero_le a)

/-- Writes keep the canonical form. -/
theorem Memory.writeAll_wf {m : Memory} (hm : m.wf = true) (ws : List Host.Cell) : (m.writeAll ws).wf = true := by
  induction ws generalizing m with
  | nil => exact hm
  | cons w ws ih => exact ih (Memory.write_wf hm w.1 w.2)

/-- Filling keeps the canonical form. -/
theorem Memory.fill_wf {m : Memory} (hm : m.wf = true) (a : Nat) (bs : List Byte) : (m.fill a bs).wf = true := by
  induction bs generalizing m a with
  | nil => exact hm
  | cons b bs ih => exact ih (Memory.write_wf hm a b) (a + 1)

theorem Memory.read_writeAll_of_ne (m : Memory) (ws : List Host.Cell) {a : Nat} (h : ∀ w ∈ ws, w.1 ≠ a) :
    (m.writeAll ws).read a = m.read a := by
  induction ws generalizing m with
  | nil => rfl
  | cons w ws ih =>
    have hw : a ≠ w.1 := fun e => h w (by simp) e.symm
    exact (ih _ fun v hv => h v (by simp [hv])).trans (Memory.read_write_of_ne m w.2 hw)

theorem Memory.fits_write {aw : Nat} {m : Memory} (hm : m.fits aw = true) {a : Nat} (b : Byte) (ha : a < 2 ^ aw) :
    (m.write a b).fits aw = true := by
  induction m with
  | nil => simp only [Memory.write]; split <;> simp [Memory.fits, ha]
  | cons cell rest ih =>
    obtain ⟨k, v⟩ := cell
    simp only [Memory.fits, List.all_cons, Bool.and_eq_true, decide_eq_true_eq] at hm ih
    simp only [Memory.write]
    split
    · split
      · simpa [Memory.fits] using hm.2
      · simp only [Memory.fits, List.all_cons, Bool.and_eq_true, decide_eq_true_eq]; exact ⟨ha, hm.2⟩
    · split
      · split
        · simp only [Memory.fits, List.all_cons, Bool.and_eq_true, decide_eq_true_eq]; exact hm
        · simp only [Memory.fits, List.all_cons, Bool.and_eq_true, decide_eq_true_eq]; exact ⟨ha, hm⟩
      · simp only [Memory.fits, List.all_cons, Bool.and_eq_true, decide_eq_true_eq]; exact ⟨hm.1, ih hm.2⟩

theorem Memory.fits_writeAll {aw : Nat} {m : Memory} (hm : m.fits aw = true) (ws : List Host.Cell)
    (h : ∀ w ∈ ws, w.1 < 2 ^ aw) : (m.writeAll ws).fits aw = true := by
  induction ws generalizing m with
  | nil => exact hm
  | cons w ws ih => exact ih (Memory.fits_write hm w.2 (h w (by simp))) fun v hv => h v (by simp [hv])

end Sys2Proof.Machine
end

