-- ==== Sys2Proof/Laws/State.lean ====
section
/-! SUPPORT. The fields of every named update of the state, one lemma each, so that no proof unfolds a record update. -/

namespace Sys2Proof.Machine

@[simp] theorem countTick_cfg (s : State) : (countTick s).cfg = s.cfg := rfl
@[simp] theorem countTick_ccount (s : State) : (countTick s).ccount = addMod s.cfg.ccw s.ccount 1 := rfl
@[simp] theorem countTick_ref (s : State) : (countTick s).ref = s.ref := rfl
@[simp] theorem countTick_t0h (s : State) : (countTick s).t0h = s.t0h := rfl
@[simp] theorem countTick_t1h (s : State) : (countTick s).t1h = s.t1h := rfl
@[simp] theorem countTick_period (s : State) : (countTick s).period = s.period := rfl
@[simp] theorem countTick_tsel (s : State) : (countTick s).tsel = s.tsel := rfl
@[simp] theorem countTick_pix (s : State) : (countTick s).pix = s.pix := rfl
@[simp] theorem countTick_byteIdx (s : State) : (countTick s).byteIdx = s.byteIdx := rfl
@[simp] theorem countTick_bitIdx (s : State) : (countTick s).bitIdx = s.bitIdx := rfl
@[simp] theorem countTick_pin (s : State) : (countTick s).pin = s.pin := rfl
@[simp] theorem countTick_base (s : State) : (countTick s).base = s.base := rfl
@[simp] theorem countTick_len (s : State) : (countTick s).len = s.len := rfl
@[simp] theorem countTick_mode (s : State) : (countTick s).mode = s.mode := rfl
@[simp] theorem countTick_st (s : State) : (countTick s).st = s.st := rfl
@[simp] theorem countTick_busy (s : State) : (countTick s).busy = s.busy := rfl
@[simp] theorem countTick_gpioOut (s : State) : (countTick s).gpioOut = s.gpioOut := rfl
@[simp] theorem countTick_gpioDir (s : State) : (countTick s).gpioDir = s.gpioDir := rfl
@[simp] theorem countTick_outputHeld (s : State) : (countTick s).outputHeld = s.outputHeld := rfl
@[simp] theorem countTick_mem (s : State) : (countTick s).mem = s.mem := rfl
@[simp] theorem countTick_host (s : State) : (countTick s).host = s.host := rfl
@[simp] theorem countTick_tick (s : State) : (countTick s).tick = s.tick := rfl

@[simp] theorem pinWrite_cfg (p : Nat) (b : Bool) (s : State) : (pinWrite p b s).cfg = s.cfg := rfl
@[simp] theorem pinWrite_ccount (p : Nat) (b : Bool) (s : State) : (pinWrite p b s).ccount = s.ccount := rfl
@[simp] theorem pinWrite_ref (p : Nat) (b : Bool) (s : State) : (pinWrite p b s).ref = s.ref := rfl
@[simp] theorem pinWrite_t0h (p : Nat) (b : Bool) (s : State) : (pinWrite p b s).t0h = s.t0h := rfl
@[simp] theorem pinWrite_t1h (p : Nat) (b : Bool) (s : State) : (pinWrite p b s).t1h = s.t1h := rfl
@[simp] theorem pinWrite_period (p : Nat) (b : Bool) (s : State) : (pinWrite p b s).period = s.period := rfl
@[simp] theorem pinWrite_tsel (p : Nat) (b : Bool) (s : State) : (pinWrite p b s).tsel = s.tsel := rfl
@[simp] theorem pinWrite_pix (p : Nat) (b : Bool) (s : State) : (pinWrite p b s).pix = s.pix := rfl
@[simp] theorem pinWrite_byteIdx (p : Nat) (b : Bool) (s : State) : (pinWrite p b s).byteIdx = s.byteIdx := rfl
@[simp] theorem pinWrite_bitIdx (p : Nat) (b : Bool) (s : State) : (pinWrite p b s).bitIdx = s.bitIdx := rfl
@[simp] theorem pinWrite_pin (p : Nat) (b : Bool) (s : State) : (pinWrite p b s).pin = s.pin := rfl
@[simp] theorem pinWrite_base (p : Nat) (b : Bool) (s : State) : (pinWrite p b s).base = s.base := rfl
@[simp] theorem pinWrite_len (p : Nat) (b : Bool) (s : State) : (pinWrite p b s).len = s.len := rfl
@[simp] theorem pinWrite_mode (p : Nat) (b : Bool) (s : State) : (pinWrite p b s).mode = s.mode := rfl
@[simp] theorem pinWrite_st (p : Nat) (b : Bool) (s : State) : (pinWrite p b s).st = s.st := rfl
@[simp] theorem pinWrite_busy (p : Nat) (b : Bool) (s : State) : (pinWrite p b s).busy = s.busy := rfl
@[simp] theorem pinWrite_gpioOut (p : Nat) (b : Bool) (s : State) : (pinWrite p b s).gpioOut = setLine s.gpioOut p b := rfl
@[simp] theorem pinWrite_gpioDir (p : Nat) (b : Bool) (s : State) : (pinWrite p b s).gpioDir = s.gpioDir := rfl
@[simp] theorem pinWrite_outputHeld (p : Nat) (b : Bool) (s : State) : (pinWrite p b s).outputHeld = s.outputHeld := rfl
@[simp] theorem pinWrite_mem (p : Nat) (b : Bool) (s : State) : (pinWrite p b s).mem = s.mem := rfl
@[simp] theorem pinWrite_host (p : Nat) (b : Bool) (s : State) : (pinWrite p b s).host = s.host := rfl
@[simp] theorem pinWrite_tick (p : Nat) (b : Bool) (s : State) : (pinWrite p b s).tick = s.tick := rfl

@[simp] theorem selectTarget_cfg (bit : Bool) (s : State) : (selectTarget bit s).cfg = s.cfg := rfl
@[simp] theorem selectTarget_ccount (bit : Bool) (s : State) : (selectTarget bit s).ccount = s.ccount := rfl
@[simp] theorem selectTarget_ref (bit : Bool) (s : State) : (selectTarget bit s).ref = s.ref := rfl
@[simp] theorem selectTarget_t0h (bit : Bool) (s : State) : (selectTarget bit s).t0h = s.t0h := rfl
@[simp] theorem selectTarget_t1h (bit : Bool) (s : State) : (selectTarget bit s).t1h = s.t1h := rfl
@[simp] theorem selectTarget_period (bit : Bool) (s : State) : (selectTarget bit s).period = s.period := rfl
@[simp] theorem selectTarget_tsel (bit : Bool) (s : State) : (selectTarget bit s).tsel = highTarget s bit := rfl
@[simp] theorem selectTarget_pix (bit : Bool) (s : State) : (selectTarget bit s).pix = s.pix := rfl
@[simp] theorem selectTarget_byteIdx (bit : Bool) (s : State) : (selectTarget bit s).byteIdx = s.byteIdx := rfl
@[simp] theorem selectTarget_bitIdx (bit : Bool) (s : State) : (selectTarget bit s).bitIdx = s.bitIdx := rfl
@[simp] theorem selectTarget_pin (bit : Bool) (s : State) : (selectTarget bit s).pin = s.pin := rfl
@[simp] theorem selectTarget_base (bit : Bool) (s : State) : (selectTarget bit s).base = s.base := rfl
@[simp] theorem selectTarget_len (bit : Bool) (s : State) : (selectTarget bit s).len = s.len := rfl
@[simp] theorem selectTarget_mode (bit : Bool) (s : State) : (selectTarget bit s).mode = s.mode := rfl
@[simp] theorem selectTarget_st (bit : Bool) (s : State) : (selectTarget bit s).st = s.st := rfl
@[simp] theorem selectTarget_busy (bit : Bool) (s : State) : (selectTarget bit s).busy = s.busy := rfl
@[simp] theorem selectTarget_gpioOut (bit : Bool) (s : State) : (selectTarget bit s).gpioOut = s.gpioOut := rfl
@[simp] theorem selectTarget_gpioDir (bit : Bool) (s : State) : (selectTarget bit s).gpioDir = s.gpioDir := rfl
@[simp] theorem selectTarget_outputHeld (bit : Bool) (s : State) : (selectTarget bit s).outputHeld = s.outputHeld := rfl
@[simp] theorem selectTarget_mem (bit : Bool) (s : State) : (selectTarget bit s).mem = s.mem := rfl
@[simp] theorem selectTarget_host (bit : Bool) (s : State) : (selectTarget bit s).host = s.host := rfl
@[simp] theorem selectTarget_tick (bit : Bool) (s : State) : (selectTarget bit s).tick = s.tick := rfl

@[simp] theorem raiseCell_cfg (s : State) : (raiseCell s).cfg = s.cfg := rfl
@[simp] theorem raiseCell_ccount (s : State) : (raiseCell s).ccount = s.ccount := rfl
@[simp] theorem raiseCell_ref (s : State) : (raiseCell s).ref = s.ccount := rfl
@[simp] theorem raiseCell_t0h (s : State) : (raiseCell s).t0h = s.t0h := rfl
@[simp] theorem raiseCell_t1h (s : State) : (raiseCell s).t1h = s.t1h := rfl
@[simp] theorem raiseCell_period (s : State) : (raiseCell s).period = s.period := rfl
@[simp] theorem raiseCell_tsel (s : State) : (raiseCell s).tsel = highTarget s (byteBit (currentByte s) s.bitIdx) := rfl
@[simp] theorem raiseCell_pix (s : State) : (raiseCell s).pix = currentByte s := rfl
@[simp] theorem raiseCell_byteIdx (s : State) : (raiseCell s).byteIdx = s.byteIdx := rfl
@[simp] theorem raiseCell_bitIdx (s : State) : (raiseCell s).bitIdx = s.bitIdx := rfl
@[simp] theorem raiseCell_pin (s : State) : (raiseCell s).pin = s.pin := rfl
@[simp] theorem raiseCell_base (s : State) : (raiseCell s).base = s.base := rfl
@[simp] theorem raiseCell_len (s : State) : (raiseCell s).len = s.len := rfl
@[simp] theorem raiseCell_mode (s : State) : (raiseCell s).mode = s.mode := rfl
@[simp] theorem raiseCell_st (s : State) : (raiseCell s).st = .waitHigh := rfl
@[simp] theorem raiseCell_busy (s : State) : (raiseCell s).busy = s.busy := rfl
@[simp] theorem raiseCell_gpioOut (s : State) : (raiseCell s).gpioOut = setLine s.gpioOut s.pin true := rfl
@[simp] theorem raiseCell_gpioDir (s : State) : (raiseCell s).gpioDir = s.gpioDir := rfl
@[simp] theorem raiseCell_outputHeld (s : State) : (raiseCell s).outputHeld = s.outputHeld := rfl
@[simp] theorem raiseCell_mem (s : State) : (raiseCell s).mem = s.mem := rfl
@[simp] theorem raiseCell_host (s : State) : (raiseCell s).host = s.host := rfl
@[simp] theorem raiseCell_tick (s : State) : (raiseCell s).tick = s.tick := rfl

@[simp] theorem finishCall_cfg (s : State) : (finishCall s).cfg = s.cfg := rfl
@[simp] theorem finishCall_ccount (s : State) : (finishCall s).ccount = s.ccount := rfl
@[simp] theorem finishCall_ref (s : State) : (finishCall s).ref = s.ref := rfl
@[simp] theorem finishCall_t0h (s : State) : (finishCall s).t0h = s.t0h := rfl
@[simp] theorem finishCall_t1h (s : State) : (finishCall s).t1h = s.t1h := rfl
@[simp] theorem finishCall_period (s : State) : (finishCall s).period = s.period := rfl
@[simp] theorem finishCall_tsel (s : State) : (finishCall s).tsel = s.tsel := rfl
@[simp] theorem finishCall_pix (s : State) : (finishCall s).pix = s.pix := rfl
@[simp] theorem finishCall_byteIdx (s : State) : (finishCall s).byteIdx = s.byteIdx := rfl
@[simp] theorem finishCall_bitIdx (s : State) : (finishCall s).bitIdx = s.bitIdx := rfl
@[simp] theorem finishCall_pin (s : State) : (finishCall s).pin = s.pin := rfl
@[simp] theorem finishCall_base (s : State) : (finishCall s).base = s.base := rfl
@[simp] theorem finishCall_len (s : State) : (finishCall s).len = s.len := rfl
@[simp] theorem finishCall_mode (s : State) : (finishCall s).mode = s.mode := rfl
@[simp] theorem finishCall_st (s : State) : (finishCall s).st = .idle := rfl
@[simp] theorem finishCall_busy (s : State) : (finishCall s).busy = false := rfl
@[simp] theorem finishCall_gpioOut (s : State) : (finishCall s).gpioOut = s.gpioOut := rfl
@[simp] theorem finishCall_gpioDir (s : State) : (finishCall s).gpioDir = s.gpioDir := rfl
@[simp] theorem finishCall_outputHeld (s : State) : (finishCall s).outputHeld = s.outputHeld := rfl
@[simp] theorem finishCall_mem (s : State) : (finishCall s).mem = s.mem := rfl
@[simp] theorem finishCall_host (s : State) : (finishCall s).host = s.host := rfl
@[simp] theorem finishCall_tick (s : State) : (finishCall s).tick = s.tick := rfl

@[simp] theorem accept_cfg (m : Mode) (p b n : Nat) (s : State) : (accept m p b n s).cfg = s.cfg := rfl
@[simp] theorem accept_ccount (m : Mode) (p b n : Nat) (s : State) : (accept m p b n s).ccount = addMod s.cfg.ccw s.ccount 1 := rfl
@[simp] theorem accept_ref (m : Mode) (p b n : Nat) (s : State) : (accept m p b n s).ref = subMod s.cfg.ccw s.ccount (periodOf s.cfg m) := rfl
@[simp] theorem accept_t0h (m : Mode) (p b n : Nat) (s : State) : (accept m p b n s).t0h = t0hOf s.cfg m := rfl
@[simp] theorem accept_t1h (m : Mode) (p b n : Nat) (s : State) : (accept m p b n s).t1h = t1hOf s.cfg m := rfl
@[simp] theorem accept_period (m : Mode) (p b n : Nat) (s : State) : (accept m p b n s).period = periodOf s.cfg m := rfl
@[simp] theorem accept_tsel (m : Mode) (p b n : Nat) (s : State) : (accept m p b n s).tsel = s.tsel := rfl
@[simp] theorem accept_pix (m : Mode) (p b n : Nat) (s : State) : (accept m p b n s).pix = s.pix := rfl
@[simp] theorem accept_byteIdx (m : Mode) (p b n : Nat) (s : State) : (accept m p b n s).byteIdx = 0 := rfl
@[simp] theorem accept_bitIdx (m : Mode) (p b n : Nat) (s : State) : (accept m p b n s).bitIdx = 7 := rfl
@[simp] theorem accept_pin (m : Mode) (p b n : Nat) (s : State) : (accept m p b n s).pin = p := rfl
@[simp] theorem accept_base (m : Mode) (p b n : Nat) (s : State) : (accept m p b n s).base = b := rfl
@[simp] theorem accept_len (m : Mode) (p b n : Nat) (s : State) : (accept m p b n s).len = n := rfl
@[simp] theorem accept_mode (m : Mode) (p b n : Nat) (s : State) : (accept m p b n s).mode = m := rfl
@[simp] theorem accept_st (m : Mode) (p b n : Nat) (s : State) : (accept m p b n s).st = (if n = 0 then SeqState.latch else .waitCell) := rfl
@[simp] theorem accept_busy (m : Mode) (p b n : Nat) (s : State) : (accept m p b n s).busy = true := rfl
@[simp] theorem accept_gpioOut (m : Mode) (p b n : Nat) (s : State) : (accept m p b n s).gpioOut = s.gpioOut := rfl
@[simp] theorem accept_gpioDir (m : Mode) (p b n : Nat) (s : State) : (accept m p b n s).gpioDir = s.gpioDir := rfl
@[simp] theorem accept_outputHeld (m : Mode) (p b n : Nat) (s : State) : (accept m p b n s).outputHeld = s.outputHeld := rfl
@[simp] theorem accept_mem (m : Mode) (p b n : Nat) (s : State) : (accept m p b n s).mem = s.mem := rfl
@[simp] theorem accept_host (m : Mode) (p b n : Nat) (s : State) : (accept m p b n s).host = s.host := rfl
@[simp] theorem accept_tick (m : Mode) (p b n : Nat) (s : State) : (accept m p b n s).tick = s.tick := rfl

@[simp] theorem hostEffects_cfg (m : HostMove) (s : State) : (hostEffects m s).cfg = s.cfg := rfl
@[simp] theorem hostEffects_ccount (m : HostMove) (s : State) : (hostEffects m s).ccount = s.ccount := rfl
@[simp] theorem hostEffects_ref (m : HostMove) (s : State) : (hostEffects m s).ref = s.ref := rfl
@[simp] theorem hostEffects_t0h (m : HostMove) (s : State) : (hostEffects m s).t0h = s.t0h := rfl
@[simp] theorem hostEffects_t1h (m : HostMove) (s : State) : (hostEffects m s).t1h = s.t1h := rfl
@[simp] theorem hostEffects_period (m : HostMove) (s : State) : (hostEffects m s).period = s.period := rfl
@[simp] theorem hostEffects_tsel (m : HostMove) (s : State) : (hostEffects m s).tsel = s.tsel := rfl
@[simp] theorem hostEffects_pix (m : HostMove) (s : State) : (hostEffects m s).pix = s.pix := rfl
@[simp] theorem hostEffects_byteIdx (m : HostMove) (s : State) : (hostEffects m s).byteIdx = s.byteIdx := rfl
@[simp] theorem hostEffects_bitIdx (m : HostMove) (s : State) : (hostEffects m s).bitIdx = s.bitIdx := rfl
@[simp] theorem hostEffects_pin (m : HostMove) (s : State) : (hostEffects m s).pin = s.pin := rfl
@[simp] theorem hostEffects_base (m : HostMove) (s : State) : (hostEffects m s).base = s.base := rfl
@[simp] theorem hostEffects_len (m : HostMove) (s : State) : (hostEffects m s).len = s.len := rfl
@[simp] theorem hostEffects_mode (m : HostMove) (s : State) : (hostEffects m s).mode = s.mode := rfl
@[simp] theorem hostEffects_st (m : HostMove) (s : State) : (hostEffects m s).st = s.st := rfl
@[simp] theorem hostEffects_busy (m : HostMove) (s : State) : (hostEffects m s).busy = s.busy := rfl
@[simp] theorem hostEffects_gpioOut (m : HostMove) (s : State) : (hostEffects m s).gpioOut = (if m.ports.rst then s.gpioOut else setLines s.gpioOut m.pinWrites) := rfl
@[simp] theorem hostEffects_gpioDir (m : HostMove) (s : State) : (hostEffects m s).gpioDir = setLines s.gpioDir m.dirWrites := rfl
@[simp] theorem hostEffects_outputHeld (m : HostMove) (s : State) :
    (hostEffects m s).outputHeld = (!s.busy || (s.outputHeld && lineLevel s.gpioDir s.pin)) := rfl
@[simp] theorem hostEffects_mem (m : HostMove) (s : State) : (hostEffects m s).mem = s.mem.writeAll m.memWrites := rfl
@[simp] theorem hostEffects_host (m : HostMove) (s : State) : (hostEffects m s).host = s.host.tail := rfl
@[simp] theorem hostEffects_tick (m : HostMove) (s : State) : (hostEffects m s).tick = s.tick + 1 := rfl

@[simp] theorem withMove_cfg (m : HostMove) (s : State) : (withMove m s).cfg = s.cfg := rfl
@[simp] theorem withMove_ccount (m : HostMove) (s : State) : (withMove m s).ccount = s.ccount := rfl
@[simp] theorem withMove_ref (m : HostMove) (s : State) : (withMove m s).ref = s.ref := rfl
@[simp] theorem withMove_t0h (m : HostMove) (s : State) : (withMove m s).t0h = s.t0h := rfl
@[simp] theorem withMove_t1h (m : HostMove) (s : State) : (withMove m s).t1h = s.t1h := rfl
@[simp] theorem withMove_period (m : HostMove) (s : State) : (withMove m s).period = s.period := rfl
@[simp] theorem withMove_tsel (m : HostMove) (s : State) : (withMove m s).tsel = s.tsel := rfl
@[simp] theorem withMove_pix (m : HostMove) (s : State) : (withMove m s).pix = s.pix := rfl
@[simp] theorem withMove_byteIdx (m : HostMove) (s : State) : (withMove m s).byteIdx = s.byteIdx := rfl
@[simp] theorem withMove_bitIdx (m : HostMove) (s : State) : (withMove m s).bitIdx = s.bitIdx := rfl
@[simp] theorem withMove_pin (m : HostMove) (s : State) : (withMove m s).pin = s.pin := rfl
@[simp] theorem withMove_base (m : HostMove) (s : State) : (withMove m s).base = s.base := rfl
@[simp] theorem withMove_len (m : HostMove) (s : State) : (withMove m s).len = s.len := rfl
@[simp] theorem withMove_mode (m : HostMove) (s : State) : (withMove m s).mode = s.mode := rfl
@[simp] theorem withMove_st (m : HostMove) (s : State) : (withMove m s).st = s.st := rfl
@[simp] theorem withMove_busy (m : HostMove) (s : State) : (withMove m s).busy = s.busy := rfl
@[simp] theorem withMove_gpioOut (m : HostMove) (s : State) : (withMove m s).gpioOut = s.gpioOut := rfl
@[simp] theorem withMove_gpioDir (m : HostMove) (s : State) : (withMove m s).gpioDir = s.gpioDir := rfl
@[simp] theorem withMove_outputHeld (m : HostMove) (s : State) : (withMove m s).outputHeld = s.outputHeld := rfl
@[simp] theorem withMove_mem (m : HostMove) (s : State) : (withMove m s).mem = s.mem := rfl
@[simp] theorem withMove_host (m : HostMove) (s : State) : (withMove m s).host = m :: s.host.tail := rfl
@[simp] theorem withMove_tick (m : HostMove) (s : State) : (withMove m s).tick = s.tick := rfl

@[simp] theorem resetStep_cfg (s : State) : (resetStep s).cfg = s.cfg := rfl
@[simp] theorem resetStep_ccount (s : State) : (resetStep s).ccount = addMod s.cfg.ccw s.ccount 1 := rfl
@[simp] theorem resetStep_ref (s : State) : (resetStep s).ref = unspecified s .ref (2 ^ s.cfg.ccw) := rfl
@[simp] theorem resetStep_t0h (s : State) : (resetStep s).t0h = unspecified s .t0h (2 ^ s.cfg.ccw) := rfl
@[simp] theorem resetStep_t1h (s : State) : (resetStep s).t1h = unspecified s .t1h (2 ^ s.cfg.ccw) := rfl
@[simp] theorem resetStep_period (s : State) : (resetStep s).period = unspecified s .period (2 ^ s.cfg.ccw) := rfl
@[simp] theorem resetStep_tsel (s : State) : (resetStep s).tsel = unspecified s .tsel (2 ^ s.cfg.ccw) := rfl
@[simp] theorem resetStep_byteIdx (s : State) : (resetStep s).byteIdx = unspecified s .byteIdx (2 ^ s.cfg.lenw) := rfl
@[simp] theorem resetStep_pin (s : State) : (resetStep s).pin = unspecified s .pin (2 ^ s.cfg.pinw) := rfl
@[simp] theorem resetStep_base (s : State) : (resetStep s).base = unspecified s .base (2 ^ s.cfg.aw) := rfl
@[simp] theorem resetStep_len (s : State) : (resetStep s).len = unspecified s .len (2 ^ s.cfg.lenw) := rfl
@[simp] theorem resetStep_st (s : State) : (resetStep s).st = .idle := rfl
@[simp] theorem resetStep_busy (s : State) : (resetStep s).busy = false := rfl
@[simp] theorem resetStep_gpioOut (s : State) : (resetStep s).gpioOut = 0 := rfl
@[simp] theorem resetStep_gpioDir (s : State) : (resetStep s).gpioDir = s.gpioDir := rfl
@[simp] theorem resetStep_outputHeld (s : State) : (resetStep s).outputHeld = s.outputHeld := rfl
@[simp] theorem resetStep_mem (s : State) : (resetStep s).mem = s.mem := rfl
@[simp] theorem resetStep_host (s : State) : (resetStep s).host = s.host := rfl
@[simp] theorem resetStep_tick (s : State) : (resetStep s).tick = s.tick := rfl

@[simp] theorem advanceCursor_cfg (s : State) : (advanceCursor s).cfg = s.cfg := by
  unfold advanceCursor; split
  · rfl
  · split <;> rfl

@[simp] theorem advanceCursor_ccount (s : State) : (advanceCursor s).ccount = s.ccount := by
  unfold advanceCursor; split
  · rfl
  · split <;> rfl

@[simp] theorem advanceCursor_ref (s : State) : (advanceCursor s).ref = s.ref := by
  unfold advanceCursor; split
  · rfl
  · split <;> rfl

@[simp] theorem advanceCursor_t0h (s : State) : (advanceCursor s).t0h = s.t0h := by
  unfold advanceCursor; split
  · rfl
  · split <;> rfl

@[simp] theorem advanceCursor_t1h (s : State) : (advanceCursor s).t1h = s.t1h := by
  unfold advanceCursor; split
  · rfl
  · split <;> rfl

@[simp] theorem advanceCursor_period (s : State) : (advanceCursor s).period = s.period := by
  unfold advanceCursor; split
  · rfl
  · split <;> rfl

@[simp] theorem advanceCursor_tsel (s : State) : (advanceCursor s).tsel = s.tsel := by
  unfold advanceCursor; split
  · rfl
  · split <;> rfl

@[simp] theorem advanceCursor_pix (s : State) : (advanceCursor s).pix = s.pix := by
  unfold advanceCursor; split
  · rfl
  · split <;> rfl

@[simp] theorem advanceCursor_pin (s : State) : (advanceCursor s).pin = s.pin := by
  unfold advanceCursor; split
  · rfl
  · split <;> rfl

@[simp] theorem advanceCursor_base (s : State) : (advanceCursor s).base = s.base := by
  unfold advanceCursor; split
  · rfl
  · split <;> rfl

@[simp] theorem advanceCursor_len (s : State) : (advanceCursor s).len = s.len := by
  unfold advanceCursor; split
  · rfl
  · split <;> rfl

@[simp] theorem advanceCursor_mode (s : State) : (advanceCursor s).mode = s.mode := by
  unfold advanceCursor; split
  · rfl
  · split <;> rfl

@[simp] theorem advanceCursor_busy (s : State) : (advanceCursor s).busy = s.busy := by
  unfold advanceCursor; split
  · rfl
  · split <;> rfl

@[simp] theorem advanceCursor_gpioOut (s : State) : (advanceCursor s).gpioOut = s.gpioOut := by
  unfold advanceCursor; split
  · rfl
  · split <;> rfl

@[simp] theorem advanceCursor_gpioDir (s : State) : (advanceCursor s).gpioDir = s.gpioDir := by
  unfold advanceCursor; split
  · rfl
  · split <;> rfl

@[simp] theorem advanceCursor_outputHeld (s : State) : (advanceCursor s).outputHeld = s.outputHeld := by
  unfold advanceCursor; split
  · rfl
  · split <;> rfl

@[simp] theorem advanceCursor_mem (s : State) : (advanceCursor s).mem = s.mem := by
  unfold advanceCursor; split
  · rfl
  · split <;> rfl

@[simp] theorem advanceCursor_host (s : State) : (advanceCursor s).host = s.host := by
  unfold advanceCursor; split
  · rfl
  · split <;> rfl

@[simp] theorem advanceCursor_tick (s : State) : (advanceCursor s).tick = s.tick := by
  unfold advanceCursor; split
  · rfl
  · split <;> rfl

@[simp] theorem lowerCell_cfg (s : State) : (lowerCell s).cfg = s.cfg := by simp [lowerCell]
@[simp] theorem lowerCell_ccount (s : State) : (lowerCell s).ccount = s.ccount := by simp [lowerCell]
@[simp] theorem lowerCell_ref (s : State) : (lowerCell s).ref = s.ref := by simp [lowerCell]
@[simp] theorem lowerCell_t0h (s : State) : (lowerCell s).t0h = s.t0h := by simp [lowerCell]
@[simp] theorem lowerCell_t1h (s : State) : (lowerCell s).t1h = s.t1h := by simp [lowerCell]
@[simp] theorem lowerCell_period (s : State) : (lowerCell s).period = s.period := by simp [lowerCell]
@[simp] theorem lowerCell_tsel (s : State) : (lowerCell s).tsel = s.tsel := by simp [lowerCell]
@[simp] theorem lowerCell_pix (s : State) : (lowerCell s).pix = s.pix := by simp [lowerCell]
@[simp] theorem lowerCell_pin (s : State) : (lowerCell s).pin = s.pin := by simp [lowerCell]
@[simp] theorem lowerCell_base (s : State) : (lowerCell s).base = s.base := by simp [lowerCell]
@[simp] theorem lowerCell_len (s : State) : (lowerCell s).len = s.len := by simp [lowerCell]
@[simp] theorem lowerCell_mode (s : State) : (lowerCell s).mode = s.mode := by simp [lowerCell]
@[simp] theorem lowerCell_busy (s : State) : (lowerCell s).busy = s.busy := by simp [lowerCell]
@[simp] theorem lowerCell_gpioOut (s : State) : (lowerCell s).gpioOut = setLine s.gpioOut s.pin false := by simp [lowerCell]
@[simp] theorem lowerCell_gpioDir (s : State) : (lowerCell s).gpioDir = s.gpioDir := by simp [lowerCell]
@[simp] theorem lowerCell_outputHeld (s : State) : (lowerCell s).outputHeld = s.outputHeld := by simp [lowerCell]
@[simp] theorem lowerCell_mem (s : State) : (lowerCell s).mem = s.mem := by simp [lowerCell]
@[simp] theorem lowerCell_host (s : State) : (lowerCell s).host = s.host := by simp [lowerCell]
@[simp] theorem lowerCell_tick (s : State) : (lowerCell s).tick = s.tick := by simp [lowerCell]

end Sys2Proof.Machine
end

