-- ==== Sys2Proof/Laws/Ops.lean ====
section
/-! SUPPORT. What each shared operation can do, said once. -/

namespace Sys2Proof.Machine

/-- The raising step reads memory at bit 7 and `PIX` below. -/
theorem currentByte_of_ne (s : State) (h : s.bitIdx ≠ 7) : currentByte s = s.pix := if_neg h

theorem currentByte_of_eq (s : State) (h : s.bitIdx = 7) : currentByte s = memRead s (byteAddress s) := if_pos h

theorem byteWrittenNow_eq_none (ws : List Host.Cell) (a : Nat) (h : ∀ w ∈ ws, w.1 ≠ a) :
    byteWrittenNow ws a = none := by
  induction ws with
  | nil => rfl
  | cons w ws ih =>
    have hw : w.1 ≠ a := h w (by simp)
    simp [byteWrittenNow, ih fun v hv => h v (by simp [hv]), hw]

/-- A byte the host does not write in this tick is read as it stands. -/
theorem memRead_of_not_written (s : State) (a : Nat) (h : ∀ w ∈ (currentMove s).memWrites, w.1 ≠ a) :
    memRead s a = s.mem.read a := by
  simp [memRead, byteWrittenNow_eq_none _ _ h]

/-- A byte is read old or as the host writes it in this very tick. -/
theorem memRead_cases (s : State) (a : Nat) :
    memRead s a = s.mem.read a ∨ byteWrittenNow (currentMove s).memWrites a = some (memRead s a) := by
  unfold memRead
  split
  · next b hb => split <;> simp [hb]
  · exact .inl rfl

/-- Where the cursor and `ST` go after a fall. -/
theorem advanceCursor_cases (s : State) :
    (s.bitIdx ≠ 0 ∧ advanceCursor s = { s with bitIdx := s.bitIdx - 1, st := .waitCell }) ∨
    (s.bitIdx = 0 ∧ addMod s.cfg.lenw s.byteIdx 1 ≠ s.len ∧
      advanceCursor s = { s with byteIdx := addMod s.cfg.lenw s.byteIdx 1, bitIdx := 7, st := .waitCell }) ∨
    (s.bitIdx = 0 ∧ addMod s.cfg.lenw s.byteIdx 1 = s.len ∧ advanceCursor s = { s with st := .latch }) := by
  unfold advanceCursor
  by_cases h0 : s.bitIdx = 0
  · by_cases h1 : addMod s.cfg.lenw s.byteIdx 1 = s.len
    · exact .inr (.inr ⟨h0, h1, by simp [h0, h1]⟩)
    · exact .inr (.inl ⟨h0, h1, by simp [h0, h1]⟩)
  · exact .inl ⟨h0, by simp [h0]⟩

theorem cellTick_of_due (s : State) (h : s.period ≤ sinceRef s) : cellTick s = countTick (raiseCell s) := by
  simp [cellTick, (periodOver_iff s).2 h]

theorem cellTick_of_early (s : State) (h : sinceRef s < s.period) : cellTick s = countTick s := by
  simp [cellTick, (periodOver_false_iff s).2 h]

theorem highTick_of_due (s : State) (h : s.tsel ≤ sinceRef s) : highTick s = countTick (lowerCell s) := by
  simp [highTick, (highOver_iff s).2 h]

theorem highTick_of_early (s : State) (h : sinceRef s < s.tsel) : highTick s = countTick s := by
  simp [highTick, (highOver_false_iff s).2 h]

theorem latchTick_of_due (s : State) (h : s.period ≤ sinceRef s) : latchTick s = countTick (finishCall s) := by
  simp [latchTick, (periodOver_iff s).2 h]

theorem latchTick_of_early (s : State) (h : sinceRef s < s.period) : latchTick s = countTick s := by
  simp [latchTick, (periodOver_false_iff s).2 h]

theorem microTick_idle (s : State) (h : s.st = .idle) : microTick s = idleTick s := by simp [microTick, h]
theorem microTick_waitCell (s : State) (h : s.st = .waitCell) : microTick s = cellTick s := by simp [microTick, h]
theorem microTick_waitHigh (s : State) (h : s.st = .waitHigh) : microTick s = highTick s := by simp [microTick, h]
theorem microTick_latch (s : State) (h : s.st = .latch) : microTick s = latchTick s := by simp [microTick, h]

/-- A command in `IDLE` is accepted with the effective profile. -/
theorem presentCommand_idle (m : Mode) (p b n : Nat) (s : State) (h : s.st = .idle) :
    presentCommand m p b n s = accept (effectiveMode s.cfg m) p b n s := if_pos h

theorem presentCommand_busy (m : Mode) (p b n : Nat) (s : State) (h : s.st ≠ .idle) :
    presentCommand m p b n s = microTick s := if_neg h

/-- What the micro-operation of a tick can do: spin, raise, lower or return. -/
theorem microTick_cases (s : State) :
    microTick s = countTick s ∨
    (s.st = .waitCell ∧ s.period ≤ sinceRef s ∧ microTick s = countTick (raiseCell s)) ∨
    (s.st = .waitHigh ∧ s.tsel ≤ sinceRef s ∧ microTick s = countTick (lowerCell s)) ∨
    (s.st = .latch ∧ s.period ≤ sinceRef s ∧ microTick s = countTick (finishCall s)) := by
  cases hst : s.st with
  | idle => exact .inl (microTick_idle s hst)
  | waitCell =>
    rw [microTick_waitCell s hst]
    by_cases h : s.period ≤ sinceRef s
    · exact .inr (.inl ⟨rfl, h, cellTick_of_due s h⟩)
    · exact .inl (cellTick_of_early s (by omega))
  | waitHigh =>
    rw [microTick_waitHigh s hst]
    by_cases h : s.tsel ≤ sinceRef s
    · exact .inr (.inr (.inl ⟨rfl, h, highTick_of_due s h⟩))
    · exact .inl (highTick_of_early s (by omega))
  | latch =>
    rw [microTick_latch s hst]
    by_cases h : s.period ≤ sinceRef s
    · exact .inr (.inr (.inr ⟨rfl, h, latchTick_of_due s h⟩))
    · exact .inl (latchTick_of_early s (by omega))

theorem microTick_cfg (s : State) : (microTick s).cfg = s.cfg := by
  rcases microTick_cases s with h | ⟨-, -, h⟩ | ⟨-, -, h⟩ | ⟨-, -, h⟩ <;> rw [h] <;> simp

/-- No micro-operation touches what is outside the block. -/
theorem microTick_outside (s : State) :
    (microTick s).gpioDir = s.gpioDir ∧ (microTick s).mem = s.mem ∧ (microTick s).host = s.host ∧
    (microTick s).tick = s.tick := by
  rcases microTick_cases s with h | ⟨-, -, h⟩ | ⟨-, -, h⟩ | ⟨-, -, h⟩ <;> rw [h] <;> simp

/-- No micro-operation touches the latched pin handle or the model's memory of its line. -/
theorem microTick_pin (s : State) : (microTick s).pin = s.pin ∧ (microTick s).outputHeld = s.outputHeld := by
  rcases microTick_cases s with h | ⟨-, -, h⟩ | ⟨-, -, h⟩ | ⟨-, -, h⟩ <;> rw [h] <;> simp

theorem presentCommand_cases (m : Mode) (p b n : Nat) (s : State) :
    (s.st = .idle ∧ presentCommand m p b n s = accept (effectiveMode s.cfg m) p b n s) ∨
    (s.st ≠ .idle ∧ presentCommand m p b n s = microTick s) := by
  by_cases h : s.st = .idle
  · exact .inl ⟨h, if_pos h⟩
  · exact .inr ⟨h, if_neg h⟩

theorem cellTick_cases (s : State) : cellTick s = countTick s ∨ cellTick s = countTick (raiseCell s) := by
  unfold cellTick; split <;> simp

theorem highTick_cases (s : State) : highTick s = countTick s ∨ highTick s = countTick (lowerCell s) := by
  unfold highTick; split <;> simp

theorem latchTick_cases (s : State) : latchTick s = countTick s ∨ latchTick s = countTick (finishCall s) := by
  unfold latchTick; split <;> simp

end Sys2Proof.Machine
end

