-- ==== Sys2Proof/Laws/WellFormed.lean ====
section
/-! SUPPORT. The operand checks as inequalities. -/

namespace Sys2Proof

@[simp] theorem Config.pinFits_iff (c : Config) (p : Nat) : c.pinFits p = true ↔ p < 2 ^ c.pinw :=
  decide_eq_true_iff

@[simp] theorem Config.baseFits_iff (c : Config) (b : Nat) : c.baseFits b = true ↔ b < 2 ^ c.aw := by
  simp [Config.baseFits]

@[simp] theorem Config.lenFits_iff (c : Config) (n : Nat) : c.lenFits n = true ↔ n < 2 ^ c.lenw := by
  simp [Config.lenFits]

/-- A checked operation is the operation itself, and its operands fit. -/
theorem checkOperands_ok {c : Config} {i j : Instr} (h : checkOperands c i = .ok j) : j = i ∧ i.wf c = true := by
  unfold checkOperands at h
  split at h
  · next hw => cases h; exact ⟨rfl, hw⟩
  · cases h

end Sys2Proof
end

