-- ==== Sys2Proof/Laws/Step.lean ====
section
/-! SUPPORT. The step said once: what it did when it answered a next state. -/

namespace Sys2Proof.Machine

theorem afterOperation_next (m : HostMove) (s : State) :
    afterOperation m (.next s) = .next (hostEffects m s) := rfl

/-- In a reset tick the reset input selects. -/
theorem selector_rst (s : State) (h : (currentMove s).ports.rst = true) : selector s = .bare true := by
  simp [selector, h]

/-- In an accepting tick the command selects. -/
theorem selector_accept (s : State) (h : Accepts s) :
    selector s = .cmd true (modeBit (currentMove s).ports.cmdMode) (currentMove s).ports.cmdPin
      (currentMove s).ports.cmdLen (currentMove s).ports.cmdBase := by
  obtain ⟨h1, h2, h3⟩ := h
  simp [selector, h1, h2, h3]

/-- In every other tick `ST` selects. -/
theorem selector_micro (s : State) (h : (currentMove s).ports.rst = false) (ha : ¬ Accepts s) :
    selector s = seqEnc s.st := by
  have : ¬ (s.st = .idle ∧ (currentMove s).ports.start = true) := fun hc => ha ⟨hc.1, h, hc.2⟩
  simp [selector, h, this]

/-- The micro-operation that `ST` selects is what its code decodes to. -/
theorem exec_of_seqEnc {s : State} {i : Instr} (h : decode s.cfg (seqEnc s.st) = .ok i) :
    exec i s = .next (microTick s) := by
  cases hst : s.st <;> rw [hst] at h <;> cases h
  · rw [microTick_idle s hst]; rfl
  · rw [microTick_waitCell s hst]; rfl
  · rw [microTick_waitHigh s hst]; rfl
  · rw [microTick_latch s hst]; rfl

/-- The command that the ports select in `IDLE` is accepted with its effective profile, and its operands fit. -/
theorem exec_of_command {s : State} {i : Instr} {m : Mode} {pin base len : Nat} (hst : s.st = .idle)
    (h : decode s.cfg (.cmd true (modeBit m) pin len base) = .ok i) :
    (pin < 2 ^ s.cfg.pinw ∧ base < 2 ^ s.cfg.aw ∧ len < 2 ^ s.cfg.lenw) ∧
    exec i s = .next (accept (effectiveMode s.cfg m) pin base len s) := by
  cases m
  · obtain ⟨rfl, hwf⟩ := checkOperands_ok h
    simp only [Instr.wf, Bool.and_eq_true, Config.pinFits_iff, Config.baseFits_iff, Config.lenFits_iff] at hwf
    exact ⟨⟨hwf.1.1, hwf.1.2, hwf.2⟩, congrArg _ (presentCommand_idle _ _ _ _ s hst)⟩
  · obtain ⟨rfl, hwf⟩ := checkOperands_ok h
    simp only [Instr.wf, Bool.and_eq_true, Config.pinFits_iff, Config.baseFits_iff, Config.lenFits_iff] at hwf
    exact ⟨⟨hwf.1.1, hwf.1.2, hwf.2⟩, congrArg _ (presentCommand_idle _ _ _ _ s hst)⟩

/-- If the step answered a next state, nothing outside hindered the tick, its selector decoded to an operation, and the
operation's next state with the host's writes is the answer. -/
theorem step_next_inv {s t : State} (h : step s = .next t) :
    Unhindered s ∧ ∃ i u, decode s.cfg (selector s) = .ok i ∧ exec i s = .next u ∧
      t = hostEffects (currentMove s) u := by
  unfold step runTick at h
  split at h
  · cases h
  next hf =>
  split at h
  · cases h
  next hw =>
  refine ⟨⟨hf, by simpa using hw⟩, ?_⟩
  split at h
  · cases h
  next i hi =>
  cases he : exec i s with
  | next u => rw [he] at h; cases h; exact ⟨i, u, hi, he, rfl⟩
  | fault f => rw [he] at h; cases h
  | refused r => rw [he] at h; cases h

/-- If the step answered a next state, nothing outside hindered the tick, and it was a reset, an accept, or the
micro-operation of `ST`, followed by the host's writes. -/
theorem step_next_cases {s t : State} (h : step s = .next t) :
    Unhindered s ∧
    (((currentMove s).ports.rst = true ∧ t = hostEffects (currentMove s) (resetStep s)) ∨
     (Accepts s ∧ (currentMove s).ports.cmdPin < 2 ^ s.cfg.pinw ∧ (currentMove s).ports.cmdBase < 2 ^ s.cfg.aw ∧
      (currentMove s).ports.cmdLen < 2 ^ s.cfg.lenw ∧
      t = hostEffects (currentMove s) (accept (effectiveMode s.cfg (currentMove s).ports.cmdMode)
        (currentMove s).ports.cmdPin (currentMove s).ports.cmdBase (currentMove s).ports.cmdLen s)) ∨
     ((currentMove s).ports.rst = false ∧ ¬ Accepts s ∧ t = hostEffects (currentMove s) (microTick s))) := by
  obtain ⟨hu, i, u, hi, he, rfl⟩ := step_next_inv h
  refine ⟨hu, ?_⟩
  cases hr : (currentMove s).ports.rst with
  | true =>
    rw [selector_rst s hr] at hi
    cases hi; cases he
    exact .inl ⟨rfl, rfl⟩
  | false =>
    right
    by_cases ha : Accepts s
    · left
      rw [selector_accept s ha] at hi
      obtain ⟨⟨h1, h2, h3⟩, hx⟩ := exec_of_command ha.1 hi
      rw [hx] at he; cases he
      exact ⟨ha, h1, h2, h3, rfl⟩
    · right
      rw [selector_micro s hr ha] at hi
      rw [exec_of_seqEnc hi] at he; cases he
      exact ⟨rfl, ha, rfl⟩

/-- The host's move of a tick is quiet or one of the queue. -/
theorem currentMove_mem (s : State) : currentMove s = quietMove ∨ currentMove s ∈ s.host := by
  cases h : s.host <;> simp [currentMove, h]

/-- The move of a tick in a state in range reaches for things that exist. -/
theorem InRange.move {s : State} (h : InRange s) : moveExists s.cfg (currentMove s) := by
  rcases currentMove_mem s with e | e
  · rw [e]; simp [moveExists, quietMove]
  · exact h.host _ e

/-- A move that reaches for things that exist does not stop the machine. -/
theorem hostFault_of_exists {s : State}
    (hm : ∀ w ∈ (currentMove s).memWrites, w.1 < 2 ^ s.cfg.aw)
    (hp : ∀ w ∈ (currentMove s).pinWrites, w.1 < 2 ^ s.cfg.pinw)
    (hd : ∀ w ∈ (currentMove s).dirWrites, w.1 < 2 ^ s.cfg.pinw) : hostFault s = none := by
  have e1 : (currentMove s).memWrites.all (fun cell => s.cfg.baseFits cell.1) = true :=
    List.all_eq_true.2 fun w hw => (Config.baseFits_iff _ _).2 (hm w hw)
  have e2 : (currentMove s).pinWrites.all (fun w => s.cfg.pinFits w.1) = true :=
    List.all_eq_true.2 fun w hw => (Config.pinFits_iff _ _).2 (hp w hw)
  have e3 : (currentMove s).dirWrites.all (fun w => s.cfg.pinFits w.1) = true :=
    List.all_eq_true.2 fun w hw => (Config.pinFits_iff _ _).2 (hd w hw)
  simp [hostFault, e1, e2, e3]

/-- A foreign write is one to the driven line while `BUSY = 1`. -/
theorem foreignWrite_iff (s : State) :
    foreignWrite s = true ↔ s.busy = true ∧ ∃ w ∈ (currentMove s).pinWrites, w.1 = s.pin := by
  simp [foreignWrite, List.any_eq_true]

/-- Where the foreign write is ruled out, no write of the tick reaches the driven line of a busy block. -/
theorem pin_not_written {s : State} (h : foreignWrite s = false) (hb : s.busy = true) :
    ∀ w ∈ (currentMove s).pinWrites, w.1 ≠ s.pin := by
  intro w hw e
  rw [(foreignWrite_iff s).2 ⟨hb, w, hw, e⟩] at h
  cases h

/-- The step of an unhindered tick, through its selector. -/
theorem step_of_decode {s : State} {i : Instr} {t : State} (hu : Unhindered s)
    (hi : decode s.cfg (selector s) = .ok i) (hx : exec i s = .next t) :
    step s = .next (hostEffects (currentMove s) t) := by
  simp [step, runTick, hu.1, hu.2, hi, hx, afterOperation]

/-- A reset tick. -/
theorem step_rst {s : State} (hu : Unhindered s) (h : (currentMove s).ports.rst = true) :
    step s = .next (hostEffects (currentMove s) (resetStep s)) :=
  step_of_decode hu (i := .rst) (by rw [selector_rst s h]; rfl) rfl

/-- A tick without reset and without an accepted command. -/
theorem step_micro {s : State} (hu : Unhindered s) (h : (currentMove s).ports.rst = false) (ha : ¬ Accepts s) :
    step s = .next (hostEffects (currentMove s) (microTick s)) := by
  obtain ⟨i, hi⟩ : ∃ i, decode s.cfg (seqEnc s.st) = .ok i := by cases s.st <;> exact ⟨_, rfl⟩
  exact step_of_decode hu (by rw [selector_micro s h ha]; exact hi) (exec_of_seqEnc hi)

/-- An accepting tick whose operands fit. -/
theorem step_accept {s : State} (hu : Unhindered s) (ha : Accepts s)
    (h1 : (currentMove s).ports.cmdPin < 2 ^ s.cfg.pinw) (h2 : (currentMove s).ports.cmdBase < 2 ^ s.cfg.aw)
    (h3 : (currentMove s).ports.cmdLen < 2 ^ s.cfg.lenw) :
    step s = .next (hostEffects (currentMove s) (accept (effectiveMode s.cfg (currentMove s).ports.cmdMode)
      (currentMove s).ports.cmdPin (currentMove s).ports.cmdBase (currentMove s).ports.cmdLen s)) := by
  obtain ⟨i, hi⟩ : ∃ i, decode s.cfg (selector s) = .ok i := by
    rw [selector_accept s ha]
    cases (currentMove s).ports.cmdMode <;> simp [modeBit, decode, checkOperands, Instr.wf, h1, h2, h3]
  have hx := hi
  rw [selector_accept s ha] at hx
  exact step_of_decode hu hi (exec_of_command ha.1 hx).2

end Sys2Proof.Machine
end

