-- ==== Sys2Proof/Laws/Run.lean ====
section
/-! SUPPORT. The states of the ticks after a state (`stateAfter`): one more tick, and ticks added up. -/

namespace Sys2Proof.Machine

theorem stateAfter_zero (s : State) : stateAfter 0 s = some s := rfl

/-- One step taken first. -/
theorem stateAfter_succ {s t : State} (n : Nat) (h : step s = .next t) : stateAfter (n + 1) s = stateAfter n t := by
  have h' : Sys2Proof.core.step s = .next t := h
  simp [stateAfter, Host.Core.run, h']

theorem stateAfter_one {s t : State} (h : step s = .next t) : stateAfter 1 s = some t := stateAfter_succ 0 h

/-- A machine that is still running took its first step. -/
theorem stateAfter_succ_inv {s u : State} {n : Nat} (h : stateAfter (n + 1) s = some u) :
    ∃ t, step s = .next t ∧ stateAfter n t = some u := by
  cases hs : step s with
  | next t => rw [stateAfter_succ _ hs] at h; exact ⟨t, rfl, h⟩
  | fault f =>
    have h' : Sys2Proof.core.step s = .fault f := hs
    simp [stateAfter, Host.Core.run, h'] at h
  | refused r =>
    have h' : Sys2Proof.core.step s = .refused r := hs
    simp [stateAfter, Host.Core.run, h'] at h

/-- Ticks add up. -/
theorem stateAfter_add {s t : State} (n m : Nat) (h : stateAfter n s = some t) :
    stateAfter (n + m) s = stateAfter m t := by
  induction n generalizing s with
  | zero => cases h; simp
  | succ n ih =>
    obtain ⟨u, hu, hn⟩ := stateAfter_succ_inv h
    rw [show n + 1 + m = (n + m) + 1 by omega, stateAfter_succ _ hu]
    exact ih hn

end Sys2Proof.Machine
end

