-- ==== Sys2Proof/Laws/Cell.lean ====
section
/-! SUPPORT. The phases of a cell of a call that the host leaves alone, as predicates on one state, and the one step that
leads from each to the next. The schedule of a call is these steps counted. -/

namespace Sys2Proof.Machine

/-- Byte `i` of a call's buffer. -/
def Call.byte (call : Call) (i : Nat) : Byte := call.mem.read ((call.base + i) % 2 ^ call.cfg.aw)

/-- What holds in every tick of a call from the tick after accept to the return, `r` ticks before the return: for so long
the host leaves the call alone. -/
structure Call.Runs (call : Call) (r : Nat) (u : State) : Prop where
  cfg : u.cfg = call.cfg
  busy : u.busy = true
  pin : u.pin = call.pin
  base : u.base = call.base
  len : u.len = call.len
  lenFits : call.len < 2 ^ call.cfg.lenw
  t0h : u.t0h = t0hOf call.cfg call.mode
  t1h : u.t1h = t1hOf call.cfg call.mode
  period : u.period = call.period
  mem : ∀ i < call.len, u.mem.read ((call.base + i) % 2 ^ call.cfg.aw) = call.byte i
  host : ∀ m ∈ u.host.take r, call.leaves m

/-- Cell `k` is about to rise: its `CELLWAIT` wait is over. -/
structure Call.Ready (call : Call) (k r : Nat) (u : State) : Prop extends call.Runs r u where
  st : u.st = .waitCell
  byteIdx : u.byteIdx = k / 8
  bitIdx : u.bitIdx.val = 7 - k % 8
  pix : k % 8 ≠ 0 → u.pix = call.byte (k / 8)
  due : u.period ≤ sinceRef u

/-- Cell `k` rose `j` ticks ago and has not fallen. -/
structure Call.High (call : Call) (k j r : Nat) (u : State) : Prop extends call.Runs r u where
  st : u.st = .waitHigh
  byteIdx : u.byteIdx = k / 8
  bitIdx : u.bitIdx.val = 7 - k % 8
  tsel : u.tsel = call.target k
  pix : u.pix = call.byte (k / 8)
  since : sinceRef u = (j + 1) % 2 ^ call.cfg.ccw
  level : lineLevel u.gpioOut call.pin = true

/-- Cell `k` rose `j` ticks ago and has fallen; the cursor is at the next cell, or at rest. -/
structure Call.Low (call : Call) (k j r : Nat) (u : State) : Prop extends call.Runs r u where
  st : u.st = if k + 1 < 8 * call.len then .waitCell else .latch
  byteIdx : k + 1 < 8 * call.len → u.byteIdx = (k + 1) / 8
  bitIdx : k + 1 < 8 * call.len → u.bitIdx.val = 7 - (k + 1) % 8
  pix : u.pix = call.byte (k / 8)
  since : sinceRef u = (j + 1) % 2 ^ call.cfg.ccw
  level : lineLevel u.gpioOut call.pin = false

/-- While the host leaves the call alone, this tick's move does; past the end of the queue too. -/
theorem Call.leaves_currentMove {call : Call} {r : Nat} {u : State} (h : ∀ m ∈ u.host.take (r + 1), call.leaves m) :
    call.leaves (currentMove u) := by
  cases hh : u.host with
  | nil => simp [currentMove, hh, Call.leaves, quietMove]
  | cons m rest => exact h _ (by simp [currentMove, hh])

/-- A tick later the host leaves the call alone for one tick less. -/
theorem Call.leaves_tail {call : Call} {r : Nat} {l : List HostMove} (h : ∀ m ∈ l.take (r + 1), call.leaves m) :
    ∀ m ∈ l.tail.take r, call.leaves m := by
  cases l with
  | nil => simp
  | cons m rest => exact fun x hx => h x (by simpa using .inr hx)

theorem Call.two_le_rise (call : Call) (k : Nat) : 2 ≤ call.rise k := by
  induction k with
  | zero => exact Nat.le_refl 2
  | succ k ih => exact Nat.le_trans ih (Nat.le_add_right _ _)

theorem Call.two_le_cellTicks (call : Call) (k : Nat) : 2 ≤ call.cellTicks k := by
  unfold Call.cellTicks Call.highTicks; omega

/-- A tick whose host move leaves the call alone is unhindered. -/
theorem Call.unhindered {call : Call} {u : State} (hc : u.cfg = call.cfg) (hm : call.leaves (currentMove u))
    (hp : u.busy = true → u.pin = call.pin) : Unhindered u := by
  obtain ⟨-, h2, h3, h4⟩ := hm
  refine ⟨hostFault_of_exists (fun w hw => hc ▸ (h2 w hw).1) (fun w hw => hc ▸ (h3 w hw).1)
    (fun w hw => hc ▸ h4 w hw), ?_⟩
  by_contra hf
  obtain ⟨hb, w, hw, e⟩ := (foreignWrite_iff u).1 (by simpa using hf)
  exact (h3 w hw).2 (e.trans (hp hb))

theorem Call.Runs.move {call : Call} {r : Nat} {u : State} (h : call.Runs (r + 1) u) : call.leaves (currentMove u) :=
  Call.leaves_currentMove h.host

/-- Every tick of a call takes the micro-operation of `ST`. -/
theorem Call.Runs.step_eq {call : Call} {r : Nat} {u : State} (h : call.Runs (r + 1) u) (hst : u.st ≠ .idle) :
    step u = .next (hostEffects (currentMove u) (microTick u)) :=
  step_micro (Call.unhindered h.cfg h.move fun _ => h.pin) h.move.1 fun ha => hst ha.1

/-- The host's moves and any step that keeps the call's registers keep the call running. -/
theorem Call.Runs.next {call : Call} {r : Nat} {u v : State} (h : call.Runs (r + 1) u) (hcfg : v.cfg = u.cfg) (hb : v.busy = u.busy)
    (hp : v.pin = u.pin) (hba : v.base = u.base) (hl : v.len = u.len) (h0 : v.t0h = u.t0h) (h1 : v.t1h = u.t1h)
    (hpe : v.period = u.period) (hm : v.mem = u.mem) (hh : v.host = u.host) :
    call.Runs r (hostEffects (currentMove u) v) where
  cfg := by simp [hcfg, h.cfg]
  busy := by simp [hb, h.busy]
  pin := by simp [hp, h.pin]
  base := by simp [hba, h.base]
  len := by simp [hl, h.len]
  lenFits := h.lenFits
  t0h := by simp [h0, h.t0h]
  t1h := by simp [h1, h.t1h]
  period := by simp [hpe, h.period]
  mem i hi := by
    simp only [hostEffects_mem, hm]
    rw [Memory.read_writeAll_of_ne _ _ fun w hw => (h.move.2.1 w hw).2 i hi]
    exact h.mem i hi
  host m hmem := by
    simp only [hostEffects_host, hh] at hmem
    exact Call.leaves_tail h.host m hmem

/-- The host leaves the call's line. -/
theorem Call.Runs.level {call : Call} {r : Nat} {u : State} (h : call.Runs (r + 1) u) (v : State) :
    lineLevel (hostEffects (currentMove u) v).gpioOut call.pin = lineLevel v.gpioOut call.pin := by
  simp only [hostEffects_gpioOut, h.move.1]
  exact lineLevel_setLines_of_ne _ _ _ fun w hw => (h.move.2.2.1 w hw).2

/-- The elapsed time of a state with the same counter and reference. -/
theorem sinceRef_next {u v : State} (m : HostMove) (e1 : v.ccount = u.ccount) (e2 : v.ref = u.ref) (e3 : v.cfg = u.cfg) :
    sinceRef (hostEffects m (countTick v)) = (sinceRef u + 1) % 2 ^ u.cfg.ccw := by
  have h : sinceRef v = sinceRef u := by simp [sinceRef, e1, e2, e3]
  rw [← h, ← e3]
  exact sinceRef_countTick v

/-- The accept tick leads to the first cell, or, for an empty buffer, to `LATCH` with its wait over. -/
theorem Call.Starts.accepted {call : Call} {s : State} (h : call.Starts s) (hf : call.fitsCounter) :
    ∃ t, step s = .next t ∧ call.Runs (call.rise (8 * call.len) - 1) t ∧ t.st = (if call.len = 0 then .latch else .waitCell) ∧
      t.byteIdx = 0 ∧ t.bitIdx = 7 ∧ t.period ≤ sinceRef t ∧
      lineLevel t.gpioOut call.pin = lineLevel s.gpioOut call.pin := by
  have hal : ∀ m ∈ s.host.take (call.rise (8 * call.len) - 1 + 1), call.leaves m := by
    rw [Nat.sub_add_cancel (Nat.le_of_succ_le (call.two_le_rise _))]
    exact h.alone
  have lv : call.leaves (currentMove s) := Call.leaves_currentMove hal
  have hc := h.cfg
  have hu : Unhindered s := Call.unhindered hc lv fun hb => by rw [h.busy] at hb; cases hb
  have hs := step_accept hu ⟨h.st, lv.1, h.start⟩ (by rw [h.pin.1, hc]; exact h.pin.2)
    (by rw [h.base.1, hc]; exact h.base.2) (by rw [h.len.1, hc]; exact h.len.2)
  refine ⟨_, hs, ?_, by simp [h.len.1], by simp, by simp, ?_, ?_⟩
  · constructor
    · simp [hc]
    · simp
    · simp [h.pin.1]
    · simp [h.base.1]
    · simp [h.len.1]
    · exact h.len.2
    · simp [hc, h.mode]
    · simp [hc, h.mode]
    · simp [hc, h.mode, Call.period]
    · intro i hi
      simp only [hostEffects_mem, accept_mem]
      rw [Memory.read_writeAll_of_ne _ _ fun w hw => (lv.2.1 w hw).2 i hi, h.mem]
      rfl
    · intro m hm
      simp only [hostEffects_host, accept_host] at hm
      exact Call.leaves_tail hal m hm
  · have hp : periodOf call.cfg (effectiveMode call.cfg (currentMove s).ports.cmdMode) = call.period := by
      rw [Call.period, h.mode, hc]
    have hw : call.period + 1 < 2 ^ call.cfg.ccw := by have := hf.1; omega
    unfold sinceRef
    simp only [hostEffects_period, accept_period, hostEffects_cfg, accept_cfg, hostEffects_ccount, accept_ccount,
      hostEffects_ref, accept_ref, addMod, subMod_eq_modSub]
    rw [modSub_mod_left, modSub_past, hc, hp, Nat.mod_eq_of_lt hw]
    omega
  · simp only [hostEffects_gpioOut, lv.1, accept_gpioOut]
    exact lineLevel_setLines_of_ne _ _ _ fun w hw => (lv.2.2.1 w hw).2

/-- The byte of a cell that is about to rise: from memory at bit 7, from `PIX` below. -/
theorem Call.Ready.currentByte_eq {call : Call} {k r : Nat} {u : State} (h : call.Ready k (r + 1) u) (hk : k < 8 * call.len) :
    currentByte u = call.byte (k / 8) := by
  by_cases h7 : u.bitIdx = 7
  · have hlt : k / 8 < call.len := by omega
    have ha : byteAddress u = (call.base + k / 8) % 2 ^ call.cfg.aw := by
      simp [byteAddress, addMod, h.cfg, h.base, h.byteIdx]
    rw [currentByte_of_eq u h7, memRead_of_not_written, ha, h.mem _ hlt]
    rw [ha]
    exact fun w hw => (h.move.2.1 w hw).2 _ hlt
  · rw [currentByte_of_ne u h7, h.pix]
    intro h0
    apply h7
    apply Fin.ext
    rw [h.bitIdx, h0]
    rfl

/-- The raising step. -/
theorem Call.Ready.rises {call : Call} {k r : Nat} {u : State} (h : call.Ready k (r + 1) u) (hk : k < 8 * call.len) :
    ∃ t, step u = .next t ∧ call.High k 0 r t ∧ t.ref = u.ccount := by
  refine ⟨_, h.toRuns.step_eq (by simp [h.st]), ?_⟩
  rw [microTick_waitCell u h.st, cellTick_of_due u h.due]
  have hby := h.currentByte_eq hk
  refine ⟨{ toRuns := h.toRuns.next rfl rfl rfl rfl rfl rfl rfl rfl rfl rfl, st := rfl, byteIdx := h.byteIdx,
            bitIdx := h.bitIdx, tsel := ?_, pix := hby, since := ?_, level := ?_ }, by simp⟩
  · show highTarget u (byteBit (currentByte u) u.bitIdx) = _
    rw [hby]
    unfold highTarget Call.target Call.bit byteBit
    rw [h.bitIdx, h.t0h, h.t1h]
    rfl
  · have h0 : sinceRef (raiseCell u) = 0 := by
      have := modSub_add (raiseCell u).cfg.ccw u.ccount 0
      simpa [sinceRef] using this
    show sinceRef (countTick (raiseCell u)) = _
    rw [sinceRef_countTick, h0]
    show (0 + 1) % 2 ^ u.cfg.ccw = _
    rw [h.cfg]
  · rw [h.toRuns.level]
    simp [lineLevel_setLine, h.pin]

/-- A spinning tick of the high phase. -/
theorem Call.High.spin {call : Call} {k j r : Nat} {u : State} (h : call.High k j (r + 1) u) (hlt : j + 1 < 2 ^ call.cfg.ccw)
    (hj : j + 1 < call.target k) : ∃ t, step u = .next t ∧ call.High k (j + 1) r t ∧ t.ref = u.ref := by
  refine ⟨_, h.toRuns.step_eq (by simp [h.st]), ?_⟩
  have hs := h.since
  rw [Nat.mod_eq_of_lt hlt] at hs
  rw [microTick_waitHigh u h.st, highTick_of_early u (by rw [hs, h.tsel]; exact hj)]
  refine ⟨{ toRuns := h.toRuns.next rfl rfl rfl rfl rfl rfl rfl rfl rfl rfl, st := h.st, byteIdx := h.byteIdx,
            bitIdx := h.bitIdx, tsel := h.tsel, pix := h.pix, since := ?_, level := ?_ }, by simp⟩
  · rw [sinceRef_next _ rfl rfl rfl, h.since, h.cfg, Nat.mod_add_mod]
  · rw [h.toRuns.level]; exact h.level

/-- The lowering step. -/
theorem Call.High.lower {call : Call} {k j r : Nat} {u : State} (h : call.High k j (r + 1) u) (hk : k < 8 * call.len)
    (hlt : j + 1 < 2 ^ call.cfg.ccw) (hj : call.target k ≤ j + 1) :
    ∃ t, step u = .next t ∧ call.Low k (j + 1) r t ∧ t.ref = u.ref := by
  refine ⟨_, h.toRuns.step_eq (by simp [h.st]), ?_⟩
  have hs := h.since
  rw [Nat.mod_eq_of_lt hlt] at hs
  rw [microTick_waitHigh u h.st, highTick_of_due u (by rw [hs, h.tsel]; exact hj)]
  have hbi := h.bitIdx
  have hby := h.byteIdx
  have hl := h.lenFits
  have hlw : u.cfg.lenw = call.cfg.lenw := by rw [h.cfg]
  have hk7 : u.bitIdx = 0 ↔ k % 8 = 7 := by
    constructor
    · intro e; rw [e] at hbi; simp at hbi; omega
    · intro e; apply Fin.ext; rw [hbi, e]; rfl
  refine ⟨{ toRuns := h.toRuns.next (by simp) (by simp) (by simp) (by simp) (by simp) (by simp) (by simp) (by simp)
              (by simp) (by simp),
            st := ?_, byteIdx := ?_, bitIdx := ?_, pix := by simp [h.pix],
            since := by rw [sinceRef_next (u := u) _ (by simp) (by simp) (by simp), h.since, h.cfg, Nat.mod_add_mod],
            level := by rw [h.toRuns.level]; simp [lineLevel_setLine, h.pin] }, by simp⟩
  all_goals
    rcases advanceCursor_cases (pinWrite u.pin false u) with ⟨e0, e⟩ | ⟨e0, e1, e⟩ | ⟨e0, e1, e⟩ <;> simp [hk7] at e0 <;>
      try (simp [addMod, hby, hlw, h.len] at e1; rw [Nat.mod_eq_of_lt (by omega)] at e1)
  all_goals simp [lowerCell, e]
  · omega
  · omega
  · omega
  · intro _; omega
  · intro _; simp only [addMod]; rw [hlw, Nat.mod_eq_of_lt (by omega)]; omega
  · intro _; omega
  · intro _
    have hv : (u.bitIdx - 1).val = u.bitIdx.val - 1 := by
      have := u.bitIdx.isLt
      rw [Fin.sub_def]
      simp only [Fin.val_one]
      omega
    rw [hv, hbi]
    omega
  · intro _; omega
  · intro _; omega

/-- A spinning tick of the low phase. -/
theorem Call.Low.spin {call : Call} {k j r : Nat} {u : State} (h : call.Low k j (r + 1) u) (hlt : j + 1 < 2 ^ call.cfg.ccw)
    (hj : j + 1 < call.period) : ∃ t, step u = .next t ∧ call.Low k (j + 1) r t ∧ t.ref = u.ref := by
  refine ⟨_, h.toRuns.step_eq (by rw [h.st]; split <;> simp), ?_⟩
  have hs := h.since
  rw [Nat.mod_eq_of_lt hlt] at hs
  have hm : microTick u = countTick u := by
    have hst := h.st
    split at hst
    · rw [microTick_waitCell u hst, cellTick_of_early u (by rw [hs, h.period]; exact hj)]
    · rw [microTick_latch u hst, latchTick_of_early u (by rw [hs, h.period]; exact hj)]
  rw [hm]
  refine ⟨{ toRuns := h.toRuns.next rfl rfl rfl rfl rfl rfl rfl rfl rfl rfl, st := h.st, byteIdx := h.byteIdx,
            bitIdx := h.bitIdx, pix := h.pix, since := ?_, level := ?_ }, by simp⟩
  · rw [sinceRef_next _ rfl rfl rfl, h.since, h.cfg, Nat.mod_add_mod]
  · rw [h.toRuns.level]; exact h.level

/-- The returning step. -/
theorem Call.Runs.returns {call : Call} {r : Nat} {u : State} (h : call.Runs (r + 1) u) (hst : u.st = .latch) (hd : u.period ≤ sinceRef u) :
    ∃ t, step u = .next t ∧ t.st = .idle ∧ t.busy = false ∧
      lineLevel t.gpioOut call.pin = lineLevel u.gpioOut call.pin := by
  refine ⟨_, h.step_eq (by simp [hst]), ?_⟩
  rw [microTick_latch u hst, latchTick_of_due u hd]
  refine ⟨by simp, by simp, ?_⟩
  rw [h.level]
  simp

end Sys2Proof.Machine
end

