-- ==== Sys2Proof/Laws/PerInstr.lean ====
section
/-! SUPPORT. Statements said once for each operation. -/

/-- The encoding of an operation whose operands fit has fields that fit (R57). -/
def Sys2Proof.Laws.EncodingFits.Statement (i : Sys2Proof.Instr) : Prop :=
  ∀ c : Sys2Proof.Config, i.wf c = true → (Sys2Proof.encode i).fits c = true

theorem Sys2Proof.Laws.EncodingFits.txFast (pin base len : Nat) :
    Sys2Proof.Laws.EncodingFits.Statement (.txFast pin base len) := by
  intro c h
  simp only [Sys2Proof.Instr.wf, Sys2Proof.encode, Sys2Proof.Enc.fits, Bool.and_eq_true] at h ⊢
  exact ⟨⟨h.1.1, h.2⟩, h.1.2⟩

theorem Sys2Proof.Laws.EncodingFits.txSlow (pin base len : Nat) :
    Sys2Proof.Laws.EncodingFits.Statement (.txSlow pin base len) := by
  intro c h
  simp only [Sys2Proof.Instr.wf, Sys2Proof.encode, Sys2Proof.Enc.fits, Bool.and_eq_true] at h ⊢
  exact ⟨⟨h.1.1, h.2⟩, h.1.2⟩

theorem Sys2Proof.Laws.EncodingFits.idle : Sys2Proof.Laws.EncodingFits.Statement .idle := fun _ _ => rfl

theorem Sys2Proof.Laws.EncodingFits.cellwait : Sys2Proof.Laws.EncodingFits.Statement .cellwait := fun _ _ => rfl

theorem Sys2Proof.Laws.EncodingFits.highwait : Sys2Proof.Laws.EncodingFits.Statement .highwait := fun _ _ => rfl

theorem Sys2Proof.Laws.EncodingFits.latchwait : Sys2Proof.Laws.EncodingFits.Statement .latchwait := fun _ _ => rfl

theorem Sys2Proof.Laws.EncodingFits.sym0 : Sys2Proof.Laws.EncodingFits.Statement .sym0 := fun _ _ => rfl

theorem Sys2Proof.Laws.EncodingFits.sym1 : Sys2Proof.Laws.EncodingFits.Statement .sym1 := fun _ _ => rfl

theorem Sys2Proof.Laws.EncodingFits.pinclr (p : Nat) : Sys2Proof.Laws.EncodingFits.Statement (.pinclr p) := fun _ h => h

theorem Sys2Proof.Laws.EncodingFits.pinset (p : Nat) : Sys2Proof.Laws.EncodingFits.Statement (.pinset p) := fun _ h => h

theorem Sys2Proof.Laws.EncodingFits.ccread : Sys2Proof.Laws.EncodingFits.Statement .ccread := fun _ _ => rfl

theorem Sys2Proof.Laws.EncodingFits.rst : Sys2Proof.Laws.EncodingFits.Statement .rst := fun _ _ => rfl
end

