-- ==== Sys2Proof/Laws/Script.lean ====
section
/-! SUPPORT. What the queue of a script presents in each tick (R72). -/

namespace Sys2Proof.Machine

/-- No line stands past the last tick of a script. -/
theorem linesAt_of_le (lines : List (Nat × HostMove)) (t : Nat) (h : scriptTicks lines ≤ t) : linesAt t lines = [] := by
  induction lines with
  | nil => rfl
  | cons line rest ih =>
    simp only [scriptTicks, Nat.max_le] at h
    have hne : line.1 ≠ t := by omega
    simpa [linesAt, hne] using ih h.2

/-- In every tick the queue holds exactly the lines of that tick; past its end the host is quiet. -/
theorem hostQueue_at (lines : List (Nat × HostMove)) (t : Nat) :
    (hostQueue lines)[t]?.getD quietMove = HostMove.mergeAll (linesAt t lines) := by
  by_cases h : t < scriptTicks lines
  · simp [hostQueue, h]
  · simp [hostQueue, h, linesAt_of_le lines t (Nat.le_of_not_lt h), HostMove.mergeAll]

end Sys2Proof.Machine
end

