-- ==== Sys2Proof/Laws/Wire.lean ====
section
/-! SUPPORT. The named premise of the claims about the wire (R115): what one tick of a call says of it, and that the model's
bounded look ahead decides it. -/

namespace Sys2Proof.Machine

/-- In this tick the line is an output. -/
theorem OutputUntilReturn.now {p : Nat} {s : State} (h : OutputUntilReturn p s) : lineLevel s.gpioDir p = true :=
  h 0 s rfl fun m h1 h2 => by omega

/-- The premise is this tick's bit and, where the call goes on, the premise of the next tick. -/
theorem outputUntilReturn_iff (p : Nat) (s : State) :
    OutputUntilReturn p s ↔
      lineLevel s.gpioDir p = true ∧ ∀ t, step s = .next t → t.busy = true → OutputUntilReturn p t := by
  constructor
  · refine fun h => ⟨h.now, fun t ht hb n v hv hall => ?_⟩
    refine h (n + 1) v (by rw [stateAfter_succ n ht]; exact hv) fun m h1 h2 w hw => ?_
    obtain ⟨k, rfl⟩ : ∃ k, m = k + 1 := ⟨m - 1, by omega⟩
    rw [stateAfter_succ k ht] at hw
    by_cases hk : k = 0
    · subst hk; cases hw; exact hb
    · exact hall k (by omega) (by omega) w hw
  · rintro ⟨h0, hs⟩ n v hv hall
    cases n with
    | zero => cases hv; exact h0
    | succ n =>
      obtain ⟨t, ht, hn⟩ := stateAfter_succ_inv hv
      refine hs t ht (hall 1 (Nat.le_refl 1) (by omega) t (stateAfter_one ht)) n v hn fun m h1 h2 w hw => ?_
      exact hall (m + 1) (by omega) (by omega) w (by rw [stateAfter_succ m ht]; exact hw)

/-- What a step leaves of the host's queue, of `GPIO_DIR` and of the model's memory of the call's line. -/
theorem step_next_outside {s t : State} (h : step s = .next t) :
    t.host = s.host.tail ∧ t.gpioDir = setLines s.gpioDir (currentMove s).dirWrites ∧
    (t.busy = true → ¬ Accepts s → t.pin = s.pin ∧ t.outputHeld = (s.outputHeld && lineLevel s.gpioDir s.pin)) ∧
    (t.busy = true → Accepts s →
      t.pin = (currentMove s).ports.cmdPin ∧ t.outputHeld = (s.outputHeld && lineLevel s.gpioDir t.pin)) := by
  have ho := microTick_outside s
  obtain ⟨-, ⟨hr, rfl⟩ | ⟨ha, -, -, -, rfl⟩ | ⟨-, ha, rfl⟩⟩ := step_next_cases h
  · simp
  · simp [ha]
  · have hp := microTick_pin s
    simp only [hostEffects_host, hostEffects_gpioDir, hostEffects_busy, hostEffects_pin, hostEffects_outputHeld, ho.1,
      ho.2.2.1, hp.1, hp.2, ha, false_implies, implies_true, and_true, true_and, not_false_eq_true, true_implies]
    intro hb
    simp [hb]

/-- With no host move to come `GPIO_DIR` stays. -/
theorem gpioDir_of_quiet {n : Nat} {s t : State} (hh : s.host = []) (h : stateAfter n s = some t) :
    t.gpioDir = s.gpioDir := by
  induction n generalizing s with
  | zero => cases h; rfl
  | succ n ih =>
    obtain ⟨u, hu, hn⟩ := stateAfter_succ_inv h
    obtain ⟨e1, e2, -⟩ := step_next_outside hu
    rw [ih (by rw [e1, hh]; rfl) hn, e2]
    simp [currentMove, hh, quietMove, setLines]

/-- The look ahead over the host's queue decides the premise. -/
theorem outputAhead_iff (p : Nat) (s : State) : outputAhead s.host.length p s = true ↔ OutputUntilReturn p s := by
  generalize hn : s.host.length = n
  induction n generalizing s with
  | zero =>
    have hh : s.host = [] := List.length_eq_zero_iff.1 hn
    refine ⟨fun h k t ht _ => ?_, fun h => h.now⟩
    rw [gpioDir_of_quiet hh ht]
    exact h
  | succ n ih =>
    rw [outputUntilReturn_iff, outputAhead, Bool.and_eq_true]
    refine and_congr_right fun _ => ?_
    cases hs : step s with
    | fault f => simp
    | refused r => simp
    | next t =>
      have hl : t.host.length = n := by rw [(step_next_outside hs).1, List.length_tail, hn]; rfl
      cases hb : t.busy <;> simp [hb, ih t hl]

/-- In a call the line is an output throughout: the ticks before and the ticks to come. -/
theorem callHasOutput_iff (s : State) (p : Nat) :
    callHasOutput s p = true ↔ s.outputHeld = true ∧ OutputUntilReturn p s := by
  rw [callHasOutput, Bool.and_eq_true, outputAhead_iff]

/-- The wire of the line of a call. -/
theorem wire_of_callLine {s : State} {p : Nat} (h : callLine s = some p) :
    ((s.outputHeld = true ∧ OutputUntilReturn p s) → wire s p = lineLevel s.gpioOut p) ∧
    (¬ (s.outputHeld = true ∧ OutputUntilReturn p s) → wire s p = Config.freeWire s.tick p) := by
  rw [← callHasOutput_iff]
  constructor
  · intro hc
    have hd := ((callHasOutput_iff s p).1 hc).2.now
    simp [wire, h, hc, hd]
  · intro hc
    simp [wire, h, Bool.eq_false_iff.2 hc]

end Sys2Proof.Machine
end

