-- ==== Sys2Proof/Laws/Writes.lean ====
section
/-! SUPPORT. Several writes of one tick: at each place the last one stands. -/

namespace Sys2Proof.Machine

/-- The head of a list of writes counts where no later one does. -/
theorem lastWrite_cons {β : Type} (k : Nat) (v : β) (ws : List (Nat × β)) (a : Nat) :
    lastWrite ((k, v) :: ws) a = (lastWrite ws a).or (if a = k then some v else none) := by
  have happ : ∀ l₁ l₂ : List (Nat × β), (l₁ ++ l₂).lookup a = (l₁.lookup a).or (l₂.lookup a) := by
    intro l₁ l₂
    induction l₁ with
    | nil => simp
    | cons x l ih =>
      obtain ⟨j, w⟩ := x
      simp only [List.cons_append, List.lookup_cons]
      cases a == j <;> simp [ih]
  simp only [lastWrite, List.reverse_cons, happ]
  congr 1
  by_cases h : a = k
  · subst h; simp
  · simp [h]

/-- What the model looks up in a tick is the last write. -/
theorem byteWrittenNow_eq_lastWrite (ws : List Host.Cell) (a : Nat) : byteWrittenNow ws a = lastWrite ws a := by
  induction ws with
  | nil => rfl
  | cons w ws ih =>
    obtain ⟨k, v⟩ := w
    rw [lastWrite_cons, ← ih, byteWrittenNow]
    cases byteWrittenNow ws a with
    | none => simp [eq_comm]
    | some b => simp

theorem Memory.read_writeAll {m : Memory} (hm : m.wf = true) (ws : List Host.Cell) (a : Nat) :
    (m.writeAll ws).read a = (lastWrite ws a).getD (m.read a) := by
  induction ws generalizing m with
  | nil => rfl
  | cons w ws ih =>
    obtain ⟨k, v⟩ := w
    rw [lastWrite_cons]
    show ((m.write k v).writeAll ws).read a = _
    rw [ih (Memory.write_wf hm k v)]
    cases lastWrite ws a with
    | some b => simp
    | none =>
      by_cases h : a = k
      · subst h; simp [Memory.read_write_self hm]
      · simp [h, Memory.read_write_of_ne m v h]

theorem lineLevel_setLines (g : Nat) (ws : List (Nat × Bool)) (q : Nat) :
    lineLevel (setLines g ws) q = (lastWrite ws q).getD (lineLevel g q) := by
  induction ws generalizing g with
  | nil => rfl
  | cons w ws ih =>
    obtain ⟨k, v⟩ := w
    rw [lastWrite_cons]
    show lineLevel (setLines (setLine g k v) ws) q = _
    rw [ih]
    cases lastWrite ws q with
    | some b => simp
    | none =>
      rw [lineLevel_setLine]
      by_cases h : q = k <;> simp [h]

end Sys2Proof.Machine
end

