-- ==== Sys2Proof/Tests/Slice0.lean ====
section
/-! SUPPORT. Ill-formed operations refused; encodings written out from 30_encoding.md; one-step vectors of
95_test_vectors.md (the V numbers are the spec's); and, for every obligation with hypotheses, states that meet them. -/

namespace Sys2Proof.Tests

open Sys2Proof Sys2Proof.Machine

/-! ## Ill-formed operations -/

theorem test_wf_pin : (Instr.txFast 16 0 0).wf Config.standard = false := by decide
theorem test_wf_base : (Instr.txSlow 0 (2 ^ 32) 0).wf Config.standard = false := by decide
theorem test_wf_len : (Instr.txFast 0 0 (2 ^ 32)).wf Config.standard = false := by decide
theorem test_wf_pinset : (Instr.pinset 16).wf Config.standard = false := by decide
theorem test_wf_pinclr : (Instr.pinclr 16).wf Config.standard = false := by decide
theorem test_wf_largest : (Instr.txFast 15 (2 ^ 32 - 1) (2 ^ 32 - 1)).wf Config.standard = true := by decide

/-! ## Encodings -/

/-- R57: `TX.FAST` of program P1. -/
theorem test_decode_tx_fast : decode Config.standard (.cmd true true 0x5 1 0x100) = .ok (.txFast 5 0x100 1) := by decide
/-- R57: `TX.SLOW` of program P2. -/
theorem test_decode_tx_slow : decode Config.standard (.cmd true false 0x2 2 0x2000) = .ok (.txSlow 2 0x2000 2) := by decide
/-- R57: `start = 0` presents no command. -/
theorem test_decode_no_command : decode Config.standard (.cmd false true 5 1 0x100) = .error .noCommand := by decide
/-- R12: there is no line 16. -/
theorem test_decode_wide_pin : decode Config.standard (.cmd true true 16 1 0) = .error .operandTooWide := by decide
/-- R60: the four codes of `ST`. -/
theorem test_decode_idle : decode Config.standard (.st false false) = .ok .idle := by decide
theorem test_decode_cellwait : decode Config.standard (.st false true) = .ok .cellwait := by decide
theorem test_decode_highwait : decode Config.standard (.st true false) = .ok .highwait := by decide
theorem test_decode_latchwait : decode Config.standard (.st true true) = .ok .latchwait := by decide
/-- R67: both codes of `CELL`. -/
theorem test_decode_sym0 : decode Config.standard (.cell false) = .ok .sym0 := by decide
theorem test_decode_sym1 : decode Config.standard (.cell true) = .ok .sym1 := by decide
/-- R61: both codes of `LVL`. -/
theorem test_decode_pinclr : decode Config.standard (.lvl false 15) = .ok (.pinclr 15) := by decide
theorem test_decode_pinset : decode Config.standard (.lvl true 5) = .ok (.pinset 5) := by decide
theorem test_decode_ccread : decode Config.standard (.bare false) = .ok .ccread := by decide
theorem test_decode_rst : decode Config.standard (.bare true) = .ok .rst := by decide

/-! ## One step -/

/-- Some fields of the state an operation leaves. -/
def seen {β : Type} (f : State → β) : Host.Outcome State Fault Refusal → Option β
  | .next t => some (f t)
  | .fault _ => none
  | .refused _ => none

/-- An idle block with every line an output. -/
def idleAt (ccount gpioOut : Nat) : State := { State.reset with ccount := ccount, gpioOut := gpioOut, gpioDir := 0xFFFF }

/-- A fast call on pin 5 at 80 MHz, two bytes 0xA5 and 0x3C at 0x100 (the common lines of V18 to V33). -/
def callAt (st : SeqState) (ref ccount tsel byteIdx : Nat) (bitIdx : Fin 8) (pix : Byte) (gpioOut : Nat) : State :=
  { idleAt ccount gpioOut with
    st := st, busy := true, ref := ref, tsel := tsel, byteIdx := byteIdx, bitIdx := bitIdx, pix := pix,
    t0h := 32, t1h := 64, period := 100, pin := 5, base := 0x100, len := 2, mode := .fast,
    mem := [(0x100, 0xA5), (0x101, 0x3C)] }

theorem test_v12_latch : seen (fun t => (t.st, t.busy, t.pin, t.base, t.len, t.mode)) (exec (.txFast 5 0x100 1) (idleAt 1000 0)) =
    some (.waitCell, true, 5, 0x100, 1, .fast) := by decide
theorem test_v12_durations :
    seen (fun t => (t.t0h, t.t1h, t.period, t.ref, t.byteIdx, t.bitIdx, t.ccount, t.gpioOut))
      (exec (.txFast 5 0x100 1) (idleAt 1000 0)) = some (32, 64, 100, 900, 0, 7, 1001, 0) := rfl
theorem test_v13 : seen (fun t => (t.st, t.mode, t.t0h, t.t1h, t.period, t.ref, t.ccount))
    (exec (.txSlow 0 0x10 4) (idleAt 50 0)) = some (.waitCell, .slow, 40, 96, 200, 0xFFFFFF6A, 51) := rfl
theorem test_v14 : seen (fun t => (t.st, t.busy, t.ref, t.ccount, t.gpioOut)) (exec (.txFast 5 0 0) (idleAt 500 0x20)) =
    some (.latch, true, 400, 501, 0x20) := by decide
theorem test_v15 : seen (fun t => (t.st, t.pin, t.mode, t.ccount))
    (exec (.txSlow 3 0x400 1) (callAt .waitHigh 1001 1010 64 0 7 0xA5 0x20)) = some (.waitHigh, 5, .fast, 1011) := by decide
theorem test_v17 : seen (fun t => (t.st, t.busy, t.gpioOut, t.ccount))
    (step { idleAt 7 0 with
      host := [{ HostMove.tx .fast 1 0 1 with
        ports := { rst := true, start := true, cmdMode := .fast, cmdPin := 1, cmdBase := 0, cmdLen := 1 } }] }) =
    some (.idle, false, 0, 8) := by decide
theorem test_v19 : seen (fun t => (t.st, t.ref, t.tsel, t.pix, t.gpioOut, t.ccount))
    (exec .cellwait (callAt .waitCell 1001 1101 0 0 6 0xA5 0)) = some (.waitHigh, 1101, 32, 0xA5, 0x20, 1102) := by decide
theorem test_v21 : seen (fun t => (t.st, t.ref, t.tsel, t.pix, t.gpioOut, t.ccount))
    (exec .cellwait (callAt .waitCell 1701 1801 0 1 7 0xA5 0)) = some (.waitHigh, 1801, 32, 0x3C, 0x20, 1802) := by decide
theorem test_v26 : seen (fun t => (t.st, t.bitIdx, t.gpioOut, t.ccount, t.ref))
    (exec .highwait (callAt .waitHigh 1001 1065 64 0 7 0xA5 0x20)) = some (.waitCell, 6, 0, 1066, 1001) := by decide
theorem test_v28 : seen (fun t => (t.st, t.byteIdx, t.bitIdx, t.gpioOut, t.ccount))
    (exec .highwait (callAt .waitHigh 2501 2533 32 1 0 0x3C 0x20)) = some (.latch, 1, 0, 0, 2534) := by decide
theorem test_v31 : seen (fun t => (t.st, t.busy, t.ccount)) (exec .latchwait (callAt .latch 1701 1800 64 1 0 0x3C 0)) =
    some (.latch, true, 1801) := by decide
theorem test_v32 : seen (fun t => (t.st, t.busy, t.ccount)) (exec .latchwait (callAt .latch 1701 1801 64 1 0 0x3C 0)) =
    some (.idle, false, 1802) := by decide
theorem test_v34 : seen (fun t => t.ccount) (exec .idle (idleAt 0xFFFFFFFF 0)) = some 0 := by decide
theorem test_v36 : seen (fun t => t.gpioOut) (exec (.pinset 5) (idleAt 0 0x4)) = some 0x24 := by decide
theorem test_v37 : seen (fun t => t.gpioOut) (exec (.pinclr 5) (idleAt 0 0x24)) = some 0x4 := by decide
theorem test_v38 : seen (fun t => t.gpioOut) (exec (.pinset 5) (idleAt 0 0x24)) = some 0x24 := by decide
theorem test_v39 : seen (fun t => t.gpioOut) (exec (.pinclr 15) (idleAt 0 0x8000)) = some 0 := by decide
/-- R86 and R87 in the common state of V18 to V24. -/
theorem test_sym0 : seen (fun t => t.tsel) (exec .sym0 (callAt .waitCell 0 0 7 0 7 0 0)) = some 32 := by decide
theorem test_sym1 : seen (fun t => t.tsel) (exec .sym1 (callAt .waitCell 0 0 7 0 7 0 0)) = some 64 := by decide
/-- R80, V35: the counter read twice, 32 ticks apart. -/
theorem test_v35 : modSub 32 (ccRead (idleAt 0x10 0)) (ccRead (idleAt 0xFFFFFFF0 0)) = 32 := by decide
theorem test_v40 : seen (fun t => (t.st, t.busy, t.gpioOut, t.ccount))
    (exec .rst (callAt .waitHigh 1101 1130 64 0 6 0xA5 0x8020)) = some (.idle, false, 0, 1131) := by decide
theorem test_v41 : seen (fun t => (t.st, t.busy, t.gpioOut, t.ccount)) (exec .rst (idleAt 9 0x4)) =
    some (.idle, false, 0, 10) := by decide
/-- V54. -/
theorem test_v54 : step { callAt .waitHigh 1001 1010 64 0 7 0xA5 0x20 with
    host := [{ quietMove with pinWrites := [(5, true)] }] } = .refused .foreignPinWrite := rfl
/-- V55. -/
theorem test_v55 : seen (fun t => t.gpioOut) (step { callAt .waitHigh 1001 1010 64 0 7 0xA5 0x20 with
    host := [{ quietMove with pinWrites := [(2, true)] }] }) = some 0x24 := by decide

/-- V53: the same step whether or not the line is an output. -/
theorem test_v53 : seen (fun t => (t.st, t.gpioOut)) (exec .cellwait { callAt .waitCell 1701 1801 0 1 7 0xA5 0 with gpioDir := 0xFFDF }) =
    some (.waitHigh, 0x20) := by decide
/-- R115: the wire is any value already in this tick where the line is no output in the next tick of the call. -/
theorem test_wire_cut : wire { callAt .waitHigh 1001 1010 64 0 7 0xA5 0x20 with
      host := [{ quietMove with dirWrites := [(5, false)] }] } 5 = Config.freeWire 0 5 ∧
    wire (callAt .waitHigh 1001 1010 64 0 7 0xA5 0x20) 5 = true := ⟨rfl, by decide⟩
/-- R145: a run with nothing to come is over in `IDLE`, and not in `LATCH`. -/
theorem test_run_over : runOver (idleAt 0 0) = true ∧ runOver (callAt .latch 1701 1800 64 1 0 0x3C 0) = false := by decide
/-- R72: lines of a script are applied at their ticks, here 2 and 0 in this order, and at tick 2 the two of V17 together. -/
theorem test_script_queue :
    hostQueue [(2, HostMove.reset), (0, HostMove.tx .fast 5 0x100 1), (2, HostMove.tx .fast 1 0 1)] =
      [HostMove.tx .fast 5 0x100 1, quietMove,
        { HostMove.tx .fast 1 0 1 with ports.rst := true }] := by decide
/-- V17: in that tick reset wins, and nothing is latched. -/
theorem test_script_reset_wins : seen (fun t => (t.st, t.busy, t.gpioOut, t.ccount)) (step
      { idleAt 7 0 with host := hostQueue [(0, HostMove.reset), (0, HostMove.tx .fast 1 0 1)] }) =
    some (.idle, false, 0, 8) := by decide

/-- A word placed at reset is the operation the very next step takes: the command 11 with operand ports of zero. -/
theorem test_placed_word : seen (fun t => (t.st, t.busy, t.mode, t.len)) (step (State.reset.withFetchWord 2 3)) =
    some (.latch, true, .fast, 0) := by decide

/-! ## States that meet the hypotheses of the obligations -/

/-- The same state with one move of the host in this tick. -/
def with1 (m : HostMove) (s : State) : State := { s with host := [m] }

/-- A tick that presents a command whose operands are the largest their ports hold. -/
def largest (m : Mode) : HostMove := HostMove.tx m 15 (2 ^ 32 - 1) (2 ^ 32 - 1)

theorem witness_decode_of_encode :
    (Instr.txFast 15 (2 ^ 32 - 1) (2 ^ 32 - 1)).wf Config.standard = true ∧
    (Instr.txSlow 0 0 0).wf Config.standard = true ∧ (Instr.pinset 15).wf Config.standard = true := by decide

theorem witness_encode_of_decode :
    decode Config.standard (.cmd true false 15 (2 ^ 32 - 1) (2 ^ 32 - 1)) =
      .ok (.txSlow 15 (2 ^ 32 - 1) (2 ^ 32 - 1)) ∧
    decode Config.standard (.lvl true 15) = .ok (.pinset 15) := by decide

theorem witness_no_reserved_encoding :
    (Enc.cmd true true 15 (2 ^ 32 - 1) (2 ^ 32 - 1)).fits Config.standard = true ∧
    (Enc.cmd false true 0 0 0).fits Config.standard = true ∧ (Enc.lvl false 15).fits Config.standard = true := by decide

theorem witness_step_runs_decoded :
    Unhindered State.reset ∧ decode State.reset.cfg (selector State.reset) = .ok .idle := by
  exact ⟨⟨rfl, rfl⟩, rfl⟩

theorem witness_tick_selection_reset :
    Unhindered (with1 HostMove.reset State.reset) ∧
    (currentMove (with1 HostMove.reset State.reset)).ports.rst = true := ⟨⟨rfl, rfl⟩, rfl⟩

theorem witness_tick_selection_idle :
    Unhindered State.reset ∧ (currentMove State.reset).ports.rst = false ∧ State.reset.st = .idle ∧
    (currentMove State.reset).ports.start = false := ⟨⟨rfl, rfl⟩, rfl, rfl, rfl⟩

theorem witness_tick_selection_command :
    ∀ m : Mode, Unhindered (with1 (largest m) State.reset) ∧ Accepts (with1 (largest m) State.reset) ∧
      (currentMove (with1 (largest m) State.reset)).ports.cmdPin < 2 ^ State.reset.cfg.pinw ∧
      (currentMove (with1 (largest m) State.reset)).ports.cmdBase < 2 ^ State.reset.cfg.aw ∧
      (currentMove (with1 (largest m) State.reset)).ports.cmdLen < 2 ^ State.reset.cfg.lenw ∧
      (currentMove (with1 (largest m) State.reset)).ports.cmdMode = m := by
  intro m
  cases m <;> exact ⟨⟨rfl, rfl⟩, ⟨rfl, rfl, rfl⟩, by decide, by decide, by decide, rfl⟩

theorem witness_tick_selection_call :
    ∀ st : SeqState, Unhindered (callAt st 1001 1100 64 0 6 0xA5 0) ∧
      (currentMove (callAt st 1001 1100 64 0 6 0xA5 0)).ports.rst = false ∧
      (callAt st 1001 1100 64 0 6 0xA5 0).st = st := fun _ => ⟨⟨rfl, rfl⟩, rfl, rfl⟩

/-- Reset meets the invariant, so it meets the hypotheses of `StepIsTotal`, `StepKeepsInvariant` and `StepKeepsConfig`. -/
theorem witness_invariant :
    InRange State.reset ∧ CallInv State.reset ∧ foreignWrite State.reset = false ∧
    ∃ t, step State.reset = .next t := by
  refine ⟨?_, ?_, rfl, _, rfl⟩
  · constructor <;> simp [State.reset, Config.standard, Config.npins, Memory.wf, Memory.wfFrom, Memory.fits]
  · constructor <;> simp [State.reset]

/-- A call in progress meets the invariant too. -/
theorem witness_invariant_in_call :
    InRange (callAt .waitHigh 1001 1010 64 0 7 0xA5 0x20) ∧ CallInv (callAt .waitHigh 1001 1010 64 0 7 0xA5 0x20) := by
  constructor
  · constructor <;> simp [callAt, idleAt, State.reset, Config.standard, Config.npins] <;> decide
  · constructor <;>
      simp [callAt, idleAt, State.reset, Config.standard, pinLevel, lineLevel, t0hOf, t1hOf, periodOf, zextCcw,
        t0hDivisor, t1hDivisor, periodDivisor]
    decide

/-- The counter at its last value, one step. -/
theorem witness_counter : ∃ t, step (idleAt 0xFFFFFFFF 0) = .next t := ⟨_, rfl⟩

theorem witness_counter_reads : ∃ t, stateAfter 2 (idleAt 0xFFFFFFFF 0) = some t := ⟨_, rfl⟩

/-- The steps of `SequencingTransfers`, `BusyWriters` and `DataRegisterWriters`: accept, raise, lower, return, reset, spin. -/
theorem witness_accepts :
    (∃ t, step (with1 (largest .slow) State.reset) = .next t) ∧ Accepts (with1 (largest .slow) State.reset) :=
  ⟨⟨_, rfl⟩, rfl, rfl, rfl⟩

theorem witness_accepts_empty :
    (∃ t, step (with1 (HostMove.tx .fast 0 0 0) State.reset) = .next t) ∧
    Accepts (with1 (HostMove.tx .fast 0 0 0) State.reset) := ⟨⟨_, rfl⟩, rfl, rfl, rfl⟩

theorem witness_raises :
    (∃ t, step (callAt .waitCell 1001 1101 0 0 6 0xA5 0) = .next t) ∧
    Raises (callAt .waitCell 1001 1101 0 0 6 0xA5 0) := ⟨⟨_, rfl⟩, rfl, rfl, by decide⟩

theorem witness_lowers :
    (∃ t, step (callAt .waitHigh 1001 1065 64 0 7 0xA5 0x20) = .next t) ∧
    Lowers (callAt .waitHigh 1001 1065 64 0 7 0xA5 0x20) := ⟨⟨_, rfl⟩, rfl, rfl, by decide⟩

theorem witness_returns :
    (∃ t, step (callAt .latch 1701 1801 64 1 0 0x3C 0) = .next t) ∧
    (currentMove (callAt .latch 1701 1801 64 1 0 0x3C 0)).ports.rst = false ∧
    (callAt .latch 1701 1801 64 1 0 0x3C 0).period ≤ sinceRef (callAt .latch 1701 1801 64 1 0 0x3C 0) :=
  ⟨⟨_, rfl⟩, rfl, by decide⟩

theorem witness_resets :
    (∃ t, step (with1 HostMove.reset (callAt .waitHigh 1101 1130 64 0 6 0xA5 0x8020)) = .next t) ∧
    Unhindered (with1 HostMove.reset (callAt .waitHigh 1101 1130 64 0 6 0xA5 0x8020)) ∧
    (currentMove (with1 HostMove.reset (callAt .waitHigh 1101 1130 64 0 6 0xA5 0x8020))).ports.rst = true :=
  ⟨⟨_, rfl⟩, ⟨rfl, rfl⟩, rfl⟩

/-- One tick before the wait is over: neither accept nor raise, lower or return. -/
theorem witness_spins :
    (∃ t, step (callAt .waitCell 1001 1100 0 0 6 0xA5 0) = .next t) ∧
    ¬ Accepts (callAt .waitCell 1001 1100 0 0 6 0xA5 0) ∧ ¬ Raises (callAt .waitCell 1001 1100 0 0 6 0xA5 0) ∧
    ¬ Lowers (callAt .waitCell 1001 1100 0 0 6 0xA5 0) :=
  ⟨⟨_, rfl⟩, fun h => absurd h.1 (by decide), fun h => absurd h.2.2 (by decide), fun h => absurd h.1 (by decide)⟩

theorem witness_ports_not_read :
    (largest .fast).ports.rst = (HostMove.tx .slow 0 0 0).ports.rst ∧
    (callAt .waitCell 1001 1100 0 0 6 0xA5 0).st ≠ .idle := by decide

theorem witness_ports_not_read_reset : HostMove.reset.ports.rst = true := rfl

theorem witness_ports_not_read_idle : quietMove.ports.start = false ∧ quietMove.ports.rst = false := by decide

/-- 80 MHz fits the counter and the build has both profiles. -/
theorem witness_command_accepted :
    (idleAt 50 0).st = .idle ∧ (idleAt 50 0).cfg.fTick < 2 ^ (idleAt 50 0).cfg.ccw ∧
    (idleAt 50 0).cfg.dualRate = true := by decide

theorem witness_single_rate :
    ({ State.reset with cfg := { Config.standard with dualRate := false } } : State).cfg.dualRate = false ∧
    ({ State.reset with cfg := { Config.standard with dualRate := false } } : State).st = .idle ∧
    ({ Config.standard with dualRate := false } : Config).fTick <
      2 ^ ({ Config.standard with dualRate := false } : Config).ccw := by decide

theorem witness_busy_states :
    (callAt .waitCell 1001 1100 0 0 6 0xA5 0).st = .waitCell ∧
    (callAt .waitHigh 1001 1010 64 0 7 0xA5 0x20).st = .waitHigh ∧
    (callAt .latch 1701 1800 64 1 0 0x3C 0).st = .latch := by decide

/-- V18 and V19: 99 ticks, 100 ticks, below bit 7. -/
theorem witness_cellwait :
    sinceRef (callAt .waitCell 1001 1100 0 0 6 0xA5 0) = 99 ∧ sinceRef (callAt .waitCell 1001 1101 0 0 6 0xA5 0) = 100 ∧
    (callAt .waitCell 1001 1101 0 0 6 0xA5 0).period = 100 ∧ (callAt .waitCell 1001 1101 0 0 6 0xA5 0).bitIdx ≠ 7 := by
  decide

/-- V21: bit 7, the byte at 0x101, no write of the host in the tick. -/
theorem witness_cellwait_bit7 :
    (callAt .waitCell 1701 1801 0 1 7 0xA5 0).period ≤ sinceRef (callAt .waitCell 1701 1801 0 1 7 0xA5 0) ∧
    (callAt .waitCell 1701 1801 0 1 7 0xA5 0).bitIdx = 7 ∧
    (0x3C : Byte) = (callAt .waitCell 1701 1801 0 1 7 0xA5 0).mem.read 0x101 ∧
    ∀ w ∈ (currentMove (callAt .waitCell 1701 1801 0 1 7 0xA5 0)).memWrites, w.1 ≠ 0x101 := by
  decide

/-- V25 to V28: 63 ticks; 64 ticks; the last bit of a byte; the last bit of the last byte. -/
theorem witness_highwait :
    sinceRef (callAt .waitHigh 1001 1064 64 0 7 0xA5 0x20) = 63 ∧
    sinceRef (callAt .waitHigh 1001 1065 64 0 7 0xA5 0x20) = 64 ∧
    (callAt .waitHigh 1001 1065 64 0 7 0xA5 0x20).tsel = 64 ∧
    (callAt .waitHigh 1001 1065 64 0 7 0xA5 0x20).bitIdx ≠ 0 := by decide

theorem witness_highwait_next_byte :
    (callAt .waitHigh 1701 1733 32 0 0 0xA5 0x20).tsel ≤ sinceRef (callAt .waitHigh 1701 1733 32 0 0 0xA5 0x20) ∧
    (callAt .waitHigh 1701 1733 32 0 0 0xA5 0x20).bitIdx = 0 ∧
    ((callAt .waitHigh 1701 1733 32 0 0 0xA5 0x20).byteIdx + 1) % 2 ^ 32 ≠
      (callAt .waitHigh 1701 1733 32 0 0 0xA5 0x20).len := by decide

theorem witness_highwait_last :
    (callAt .waitHigh 2501 2533 32 1 0 0x3C 0x20).tsel ≤ sinceRef (callAt .waitHigh 2501 2533 32 1 0 0x3C 0x20) ∧
    (callAt .waitHigh 2501 2533 32 1 0 0x3C 0x20).bitIdx = 0 ∧
    ((callAt .waitHigh 2501 2533 32 1 0 0x3C 0x20).byteIdx + 1) % 2 ^ 32 =
      (callAt .waitHigh 2501 2533 32 1 0 0x3C 0x20).len := by decide

/-- V31 and V32. -/
theorem witness_latchwait :
    sinceRef (callAt .latch 1701 1800 64 1 0 0x3C 0) = 99 ∧ sinceRef (callAt .latch 1701 1801 64 1 0 0x3C 0) = 100 ∧
    (callAt .latch 1701 1801 64 1 0 0x3C 0).period = 100 := by decide

/-- Every operation yields a next state, the hypothesis of the frames. -/
theorem witness_frames :
    (∃ t, exec .cellwait (callAt .waitCell 1001 1101 0 0 6 0xA5 0) = .next t) ∧
    (∃ t, exec .highwait (callAt .waitHigh 1001 1065 64 0 7 0xA5 0x20) = .next t) ∧
    (∃ t, exec .latchwait (callAt .latch 1701 1801 64 1 0 0x3C 0) = .next t) ∧
    (∃ t, exec (.pinset 5) (idleAt 0 0x4) = .next t) ∧
    (∃ t, exec (.txFast 5 0 0) (idleAt 0 0x4) = .next t) ∧ (idleAt 0 0x4).st = .idle :=
  ⟨⟨_, rfl⟩, ⟨_, rfl⟩, ⟨_, rfl⟩, ⟨_, rfl⟩, ⟨_, rfl⟩, rfl⟩

theorem witness_latched_byte :
    (callAt .waitCell 1001 1101 0 0 6 0xA5 0).bitIdx ≠ 7 ∧
    ∃ t, exec .cellwait (callAt .waitCell 1001 1101 0 0 6 0xA5 0) = .next t := ⟨by decide, _, rfl⟩

/-- The host writes byte 0x101 twice in the tick that reads it. -/
def racing : State :=
  with1 { quietMove with memWrites := [(0x101, 0x11), (0x101, 0x22)] } (callAt .waitCell 1701 1801 0 1 7 0xA5 0)

theorem witness_racing :
    racing.bitIdx = 7 ∧ racing.period ≤ sinceRef racing ∧
    lastWrite (currentMove racing).memWrites ((racing.base + racing.byteIdx) % 2 ^ racing.cfg.aw) = some 0x22 := by decide

/-- A tick of writes of every kind. -/
theorem witness_host_writes :
    (∃ t, step (with1 { quietMove with memWrites := [(2 ^ 32 - 1, 0x11)], pinWrites := [(15, true)], dirWrites := [(5, false)] }
      (callAt .waitHigh 1001 1010 64 0 7 0xA5 0x20)) = .next t) ∧
    (callAt .waitHigh 1001 1010 64 0 7 0xA5 0x20).mem.wf = true := ⟨⟨_, rfl⟩, by decide⟩

theorem witness_foreign_write :
    hostFault (with1 { quietMove with pinWrites := [(5, true)] } (callAt .waitHigh 1001 1010 64 0 7 0xA5 0x20)) = none ∧
    (callAt .waitHigh 1001 1010 64 0 7 0xA5 0x20).busy = true ∧
    (callAt .waitHigh 1001 1010 64 0 7 0xA5 0x20).pin = 5 := by decide

/-- The first address and the first line that are not there. -/
theorem witness_absent_address :
    ∃ w ∈ (currentMove (with1 { quietMove with memWrites := [(2 ^ 32, 0)] } State.reset)).memWrites,
      2 ^ Config.standard.aw ≤ w.1 := by decide

theorem witness_absent_line :
    (∀ w ∈ (currentMove (with1 { quietMove with dirWrites := [(16, true)] } State.reset)).memWrites,
      w.1 < 2 ^ Config.standard.aw) ∧
    ∃ w ∈ (currentMove (with1 { quietMove with dirWrites := [(16, true)] } State.reset)).pinWrites ++
        (currentMove (with1 { quietMove with dirWrites := [(16, true)] } State.reset)).dirWrites,
      2 ^ Config.standard.pinw ≤ w.1 := by decide

/-- In the accept tick the host also writes the line `PIN`, which no block step drives in it. -/
theorem witness_host_writes_pin :
    (∃ t, step (with1 { HostMove.tx .fast 5 0x100 1 with pinWrites := [(0, true)] } State.reset) = .next t) ∧
    State.reset.pin = 0 ∧ ¬ Raises (with1 { HostMove.tx .fast 5 0x100 1 with pinWrites := [(0, true)] } State.reset) ∧
    ¬ Lowers (with1 { HostMove.tx .fast 5 0x100 1 with pinWrites := [(0, true)] } State.reset) :=
  ⟨⟨_, rfl⟩, rfl, fun h => absurd h.1 (by decide), fun h => absurd h.1 (by decide)⟩

/-- The nearest writes that are admitted: the next line during a call, the line `PIN` outside one, in an accept tick. -/
theorem witness_foreign_write_admitted :
    hostFault (with1 { quietMove with pinWrites := [(6, true)] } (callAt .waitHigh 1001 1010 64 0 7 0xA5 0x20)) = none ∧
    ¬ (∃ w ∈ (currentMove (with1 { quietMove with pinWrites := [(6, true)] }
      (callAt .waitHigh 1001 1010 64 0 7 0xA5 0x20))).pinWrites, w.1 = 5) ∧
    hostFault (with1 { largest .fast with pinWrites := [(0, true)] } State.reset) = none ∧
    State.reset.busy = false ∧ Accepts (with1 { largest .fast with pinWrites := [(0, true)] } State.reset) ∧
    (largest .fast).ports.cmdPin < 2 ^ Config.standard.pinw ∧ (largest .fast).ports.cmdBase < 2 ^ Config.standard.aw ∧
    (largest .fast).ports.cmdLen < 2 ^ Config.standard.lenw :=
  ⟨by decide, by decide, by decide, rfl, ⟨rfl, rfl, rfl⟩, by decide, by decide, by decide⟩

/-- An output line in a tick of no call. -/
theorem witness_wire_outside_call :
    lineLevel (idleAt 0 0x20).gpioDir 5 = true ∧ callLine (idleAt 0 0x20) = none := by decide

theorem witness_wire_raised :
    (∃ t, step (callAt .waitCell 1001 1101 0 0 6 0xA5 0) = .next t ∧ t.busy = true) ∧
    Raises (callAt .waitCell 1001 1101 0 0 6 0xA5 0) ∧
    (callAt .waitCell 1001 1101 0 0 6 0xA5 0).busy = true ∧
    (callAt .waitCell 1001 1101 0 0 6 0xA5 0).outputHeld = true ∧
    OutputUntilReturn 5 (callAt .waitCell 1001 1101 0 0 6 0xA5 0) :=
  ⟨⟨_, rfl, rfl⟩, ⟨rfl, rfl, by decide⟩, rfl, rfl, (outputAhead_iff _ _).1 (by decide)⟩

theorem witness_wire_lowered :
    Lowers (callAt .waitHigh 1001 1065 64 0 7 0xA5 0x20) ∧
    (callAt .waitHigh 1001 1065 64 0 7 0xA5 0x20).busy = true ∧
    (callAt .waitHigh 1001 1065 64 0 7 0xA5 0x20).outputHeld = true ∧
    OutputUntilReturn 5 (callAt .waitHigh 1001 1065 64 0 7 0xA5 0x20) :=
  ⟨⟨rfl, rfl, by decide⟩, rfl, rfl, (outputAhead_iff _ _).1 (by decide)⟩

/-- The lowest supported frequency, the highest, and one at which a tick is within the tolerance. -/
theorem witness_supported :
    ({ Config.standard with fTick := 2500000 } : Config).supported ∧
    ({ Config.standard with fTick := 2 ^ 32 - 1 } : Config).supported ∧ Config.standard.supported ∧
    1000000000 ≤ Config.standard.tolFast * Config.standard.fTick := by
  refine ⟨⟨?_, ?_⟩, ⟨?_, ?_⟩, ⟨?_, ?_⟩, ?_⟩ <;> decide

/-- The call of program P1: one byte 0xFF, fast, on pin 5. -/
def callP1 : Call where
  cfg := Config.standard
  mode := .fast
  pin := 5
  base := 0x100
  len := 1
  mem := [(0x100, 0xFF)]

/-- The tick that accepts it. -/
def startP1 : State :=
  { with1 (HostMove.tx .fast 5 0x100 1) (idleAt 1000 0) with mem := [(0x100, 0xFF)] }

theorem witness_call : callP1.Starts startP1 ∧ callP1.fitsCounter ∧ callP1.nominal ∧ startP1.cfg.supported ∧
    1 ≤ callP1.len ∧ 0 < 8 * callP1.len ∧ 0 < callP1.cellTicks 0 ∧ levelAfter callP1.pin 1 startP1 = false := by
  refine ⟨⟨rfl, rfl, rfl, rfl, rfl, rfl, rfl, ?_, ?_, ?_, ?_⟩, ?_, ?_, ?_, ?_, ?_, ?_, ?_⟩
  · exact ⟨rfl, by decide⟩
  · exact ⟨rfl, by decide⟩
  · exact ⟨rfl, by decide⟩
  · intro m hm
    have hm := List.mem_of_mem_take hm
    simp only [startP1, with1, List.mem_singleton] at hm
    subst hm
    exact ⟨rfl, by simp [HostMove.tx, quietMove], by simp [HostMove.tx, quietMove], by simp [HostMove.tx, quietMove]⟩
  · unfold Call.fitsCounter; decide
  · unfold Call.nominal; decide
  · unfold Config.supported; decide
  · decide
  · decide
  · decide
  · rfl

/-- A slow call of one byte 0xFF at 2 MHz, below the supported range of R9: `T0H`, `T1H`, `PERIOD` are 1, 2, 5 (R64), and
the return is 42 ticks after the accept tick. -/
def callSlow : Call :=
  { callP1 with cfg := { Config.standard with fTick := 2000000 }, mode := .slow }

/-- The move of a host that has seen the return: it rewrites the buffer, drives the pin and resets. -/
def afterReturn : HostMove :=
  { quietMove with ports.rst := true, memWrites := [(0x100, 0x00)], pinWrites := [(5, true)] }

/-- The tick that accepts it, with a host that leaves the call alone until the return and not after it. -/
def startSlow : State :=
  { startP1 with
      cfg := callSlow.cfg
      host := HostMove.tx .slow 5 0x100 1 :: (List.replicate 41 quietMove ++ [afterReturn]) }

theorem witness_call_reused_buffer : callSlow.Starts startSlow ∧ ¬ (∀ m ∈ startSlow.host, callSlow.leaves m) := by
  have take : startSlow.host.take (callSlow.rise (8 * callSlow.len)) =
      HostMove.tx .slow 5 0x100 1 :: List.replicate 41 quietMove := by decide
  refine ⟨⟨rfl, rfl, rfl, rfl, rfl, rfl, rfl, ⟨rfl, by decide⟩, ⟨rfl, by decide⟩, ⟨rfl, by decide⟩, ?_⟩, ?_⟩
  · intro m hm
    rw [take, List.mem_cons, List.mem_replicate] at hm
    rcases hm with rfl | ⟨_, rfl⟩ <;> simp [Call.leaves, HostMove.tx, quietMove]
  · intro all
    have last := (all afterReturn (by simp [startSlow])).1
    simp [afterReturn] at last

/-- The premises of the rules hold below the supported range, and so do those of `NominalCalls`. -/
theorem witness_call_below_supported : callSlow.nominal ∧ callSlow.fitsCounter ∧ ¬ callSlow.cfg.supported ∧
    callSlow.cfg.fTick < 2 ^ callSlow.cfg.ccw ∧ 1 ≤ t0hOf callSlow.cfg callSlow.mode ∧
    t1hOf callSlow.cfg callSlow.mode < callSlow.period := by
  unfold Call.nominal Call.fitsCounter Config.supported
  decide

/-- Every line an output, for the whole call. -/
theorem witness_call_wire : OutputUntilReturn callP1.pin startP1 := (outputAhead_iff _ _).1 (by decide)

/-- The call of P1 with the line of the call made no output in the tick after the accept tick. -/
def cutP1 : State :=
  { startP1 with host := [HostMove.tx .fast 5 0x100 1, { quietMove with dirWrites := [(5, false)] }] }

theorem witness_call_wire_cut : callP1.Starts cutP1 ∧ callP1.fitsCounter ∧ ¬ OutputUntilReturn callP1.pin cutP1 := by
  refine ⟨⟨rfl, rfl, rfl, rfl, rfl, rfl, rfl, ⟨rfl, by decide⟩, ⟨rfl, by decide⟩, ⟨rfl, by decide⟩, ?_⟩,
    by unfold Call.fitsCounter; decide, ?_⟩
  · intro m hm
    have hm := List.mem_of_mem_take hm
    simp only [cutP1, List.mem_cons, List.not_mem_nil, or_false] at hm
    rcases hm with rfl | rfl <;> simp [Call.leaves, HostMove.tx, quietMove, callP1, Config.standard]
  · rw [← outputAhead_iff]
    decide

/-- The empty call of V14. -/
theorem witness_empty_call : ∃ (call : Call) (s : State), call.Starts s ∧ call.fitsCounter ∧ call.len = 0 := by
  refine ⟨{ callP1 with len := 0, mem := [] }, with1 (HostMove.tx .fast 5 0x100 0) (idleAt 500 0x20),
    ⟨rfl, rfl, rfl, rfl, rfl, rfl, rfl, ⟨rfl, by decide⟩, ⟨rfl, by decide⟩, ⟨rfl, by decide⟩, ?_⟩, ?_, rfl⟩
  · intro m hm
    have hm := List.mem_of_mem_take hm
    simp only [with1, List.mem_singleton] at hm
    subst hm
    exact ⟨rfl, by simp [HostMove.tx, quietMove], by simp [HostMove.tx, quietMove], by simp [HostMove.tx, quietMove]⟩
  · unfold Call.fitsCounter; decide

/-- Two idle blocks with different leftovers of earlier calls. -/
theorem witness_no_residue :
    AgreeOnLive { idleAt 50 0 with ref := 701, pix := 0xA5, pin := 3 } { idleAt 50 0 with tsel := 64, len := 7 } ∧
    AgreeOnLive (callAt .waitCell 1001 1101 0 0 7 0xA5 0) (callAt .waitCell 1001 1101 64 0 7 0x11 0) := by
  constructor <;> simp [AgreeOnLive, callAt, idleAt, State.reset]

/-- The same call at two places of the counter, one of them across the wrap (V18 and P2). -/
theorem witness_counter_value :
    AgreeUpToClock (callAt .waitCell 1001 1100 0 0 6 0xA5 0) (callAt .waitCell 0xFFFFFFC9 0x2C 0 0 6 0xA5 0) :=
  ⟨rfl, fun _ => by decide⟩

end Sys2Proof.Tests
end

/-! PROOFS. One tick of the block, and what it keeps of the state. -/

namespace Sys2Proof.Machine

/-! ## What one tick can do -/

/-- The return is taken in this tick (R91). -/
def Returns (s : State) : Prop :=
  s.st = .latch ∧ (currentMove s).ports.rst = false ∧ s.period ≤ sinceRef s

/-- The six things the block can do in a tick, each with its condition, and the state it leaves before the host's writes of
the tick (`step_blockTick` ties it to `step`). -/
inductive BlockTick (s : State) : State → Prop
  | reset (hr : (currentMove s).ports.rst = true) : BlockTick s (resetStep s)
  | accept (ha : Accepts s) (hp : (currentMove s).ports.cmdPin < 2 ^ s.cfg.pinw)
      (hb : (currentMove s).ports.cmdBase < 2 ^ s.cfg.aw) (hl : (currentMove s).ports.cmdLen < 2 ^ s.cfg.lenw) :
      BlockTick s (accept (effectiveMode s.cfg (currentMove s).ports.cmdMode) (currentMove s).ports.cmdPin
        (currentMove s).ports.cmdBase (currentMove s).ports.cmdLen s)
  | raise (h : Raises s) : BlockTick s (countTick (raiseCell s))
  | lower (h : Lowers s) : BlockTick s (countTick (lowerCell s))
  | finish (h : Returns s) : BlockTick s (countTick (finishCall s))
  | spin (hr : (currentMove s).ports.rst = false) (ha : ¬ Accepts s) (hra : ¬ Raises s) (hlo : ¬ Lowers s)
      (hre : ¬ Returns s) : BlockTick s (countTick s)

/-- Without reset and without an accepted command the tick raises, lowers, returns or spins. -/
theorem blockTick_microTick {s : State} (hr : (currentMove s).ports.rst = false) (ha : ¬ Accepts s) :
    BlockTick s (microTick s) := by
  by_cases hra : Raises s
  · rw [microTick_waitCell s hra.1, cellTick_of_due s hra.2.2]
    exact .raise hra
  by_cases hlo : Lowers s
  · rw [microTick_waitHigh s hlo.1, highTick_of_due s hlo.2.2]
    exact .lower hlo
  by_cases hre : Returns s
  · rw [microTick_latch s hre.1, latchTick_of_due s hre.2.2]
    exact .finish hre
  obtain h | ⟨hst, hd, -⟩ | ⟨hst, hd, -⟩ | ⟨hst, hd, -⟩ := microTick_cases s
  · rw [h]
    exact .spin hr ha hra hlo hre
  · exact absurd ⟨hst, hr, hd⟩ hra
  · exact absurd ⟨hst, hr, hd⟩ hlo
  · exact absurd ⟨hst, hr, hd⟩ hre

/-- A step that answers is one of the six, followed by the host's writes, in a tick that nothing outside hindered. -/
theorem step_blockTick {s t : State} (h : step s = .next t) :
    Unhindered s ∧ ∃ u, BlockTick s u ∧ t = hostEffects (currentMove s) u := by
  obtain ⟨hu, ⟨hr, rfl⟩ | ⟨ha, hp, hb, hl, rfl⟩ | ⟨hr, ha, rfl⟩⟩ := step_next_cases h
  · exact ⟨hu, _, .reset hr, rfl⟩
  · exact ⟨hu, _, .accept ha hp hb hl, rfl⟩
  · exact ⟨hu, _, blockTick_microTick hr ha, rfl⟩

/-! ## Every register stays in its range -/

theorem InRange.countTick {s : State} (h : InRange s) : InRange (countTick s) :=
  { h with ccount := addMod_lt _ _ _ }

theorem InRange.pinWrite {s : State} (h : InRange s) {p : Nat} (hp : p < s.cfg.npins) (b : Bool) :
    InRange (pinWrite p b s) :=
  { h with gpioOut := setLine_lt _ _ _ _ h.gpioOut hp }

theorem InRange.highTarget_lt {s : State} (h : InRange s) (bit : Bool) : highTarget s bit < 2 ^ s.cfg.ccw := by
  cases bit
  · exact h.t0h
  · exact h.t1h

theorem InRange.raiseCell {s : State} (h : InRange s) : InRange (raiseCell s) :=
  { h.pinWrite h.pin true with ref := h.ccount, tsel := h.highTarget_lt _ }

theorem InRange.advanceCursor {s : State} (h : InRange s) : InRange (advanceCursor s) := by
  obtain ⟨-, e⟩ | ⟨-, -, e⟩ | ⟨-, -, e⟩ := advanceCursor_cases s <;> rw [e]
  · exact { h with }
  · exact { h with byteIdx := addMod_lt _ _ _ }
  · exact { h with }

theorem InRange.lowerCell {s : State} (h : InRange s) : InRange (lowerCell s) :=
  (h.pinWrite h.pin false).advanceCursor

theorem InRange.finishCall {s : State} (h : InRange s) : InRange (finishCall s) := { h with }

theorem InRange.accept {s : State} (h : InRange s) (m : Mode) {p b n : Nat} (hp : p < 2 ^ s.cfg.pinw)
    (hb : b < 2 ^ s.cfg.aw) (hn : n < 2 ^ s.cfg.lenw) : InRange (accept m p b n s) :=
  { h with
    ccount := addMod_lt _ _ _, ref := subMod_lt _ _ _, t0h := zextCcw_lt _ _, t1h := zextCcw_lt _ _,
    period := zextCcw_lt _ _, byteIdx := two_pow_pos _, pin := hp, base := hb, len := hn }

theorem unspecified_lt (s : State) (r : UnspecifiedReg) (n : Nat) : unspecified s r (2 ^ n) < 2 ^ n :=
  Nat.mod_lt _ (two_pow_pos n)

theorem InRange.resetStep {s : State} (h : InRange s) : InRange (resetStep s) :=
  { h with
    ccount := addMod_lt _ _ _, ref := unspecified_lt _ _ _, t0h := unspecified_lt _ _ _, t1h := unspecified_lt _ _ _,
    period := unspecified_lt _ _ _, tsel := unspecified_lt _ _ _, byteIdx := unspecified_lt _ _ _,
    pin := unspecified_lt _ _ _, base := unspecified_lt _ _ _, len := unspecified_lt _ _ _, gpioOut := two_pow_pos _ }

/-- Whatever the block does in a tick keeps the ranges. -/
theorem BlockTick.inRange {s u : State} (hu : BlockTick s u) (h : InRange s) : InRange u := by
  cases hu with
  | reset => exact h.resetStep
  | accept _ hp hb hl => exact h.accept _ hp hb hl
  | raise => exact h.raiseCell.countTick
  | lower => exact h.lowerCell.countTick
  | finish => exact h.finishCall.countTick
  | spin => exact h.countTick

/-- Writes of the host that reach for things that exist keep the ranges. -/
theorem InRange.hostEffects {u : State} (h : InRange u) {m : HostMove} (hm : moveExists u.cfg m) :
    InRange (hostEffects m u) := by
  obtain ⟨hmem, hpin, hdir, -⟩ := hm
  refine { h with
    gpioOut := ?_, gpioDir := setLines_lt _ _ _ h.gpioDir hdir, memWf := Memory.writeAll_wf h.memWf _,
    memFits := Memory.fits_writeAll h.memFits _ hmem, host := fun w hw => h.host w (List.mem_of_mem_tail hw) }
  rw [hostEffects_gpioOut]
  split
  · exact h.gpioOut
  · exact setLines_lt _ _ _ h.gpioOut hpin

/-- No operation of the block writes the parameters (R32). -/
theorem BlockTick.cfg {s u : State} (hu : BlockTick s u) : u.cfg = s.cfg := by
  cases hu <;> simp

theorem step_inRange {s t : State} (h : InRange s) (hs : step s = .next t) : InRange t := by
  obtain ⟨-, u, hu, rfl⟩ := step_blockTick hs
  exact (hu.inRange h).hostEffects (hu.cfg ▸ h.move)

/-! ## The invariant of a call -/

/-- In `IDLE` the invariant of a call asks no more than that none is in progress. -/
theorem CallInv.of_idle {s : State} (hst : s.st = .idle) (hb : s.busy = false) (hh : s.outputHeld = true) :
    CallInv s := by
  constructor <;> simp [hst, hb, hh]

/-- The host leaves the driven line of a busy block, so its level is what the block's operation made it. -/
theorem pinLevel_hostEffects {s u : State} (hu : Unhindered s) (hb : s.busy = true) (hp : u.pin = s.pin) :
    pinLevel (hostEffects (currentMove s) u) = pinLevel u := by
  simp only [pinLevel, hostEffects_pin, hostEffects_gpioOut]
  split
  · rfl
  · exact lineLevel_setLines_of_ne _ _ _ (hp ▸ pin_not_written hu.2 hb)

/-- One tick after a rise the line is high. -/
theorem pinLevel_raised {s : State} (hu : Unhindered s) (hb : s.busy = true) :
    pinLevel (hostEffects (currentMove s) (countTick (raiseCell s))) = true := by
  rw [pinLevel_hostEffects hu hb (by simp)]
  simp [pinLevel, lineLevel_setLine]

/-- One tick after a fall it is low. -/
theorem pinLevel_lowered {s : State} (hu : Unhindered s) (hb : s.busy = true) :
    pinLevel (hostEffects (currentMove s) (countTick (lowerCell s))) = false := by
  rw [pinLevel_hostEffects hu hb (by simp)]
  simp [pinLevel, lineLevel_setLine]

theorem CallInv.busy {s : State} (h : CallInv s) (hst : s.st ≠ .idle) : s.busy = true := h.busyIff.2 hst

/-- With the build's effective profile no slow call starts in a single-rate build (R59). -/
theorem effectiveMode_of_singleRate {c : Config} (h : c.dualRate = false) (m : Mode) : effectiveMode c m = .fast := by
  simp [effectiveMode, h]

/-- The accept step starts a call whose cursor is at the first bit, or rests in `LATCH` with no byte. -/
theorem callInv_accept (hm : HostMove) (m : Mode) (p b n : Nat) (s : State) :
    CallInv (hostEffects hm (accept (effectiveMode s.cfg m) p b n s)) := by
  by_cases hn : n = 0
  · constructor <;> simp +contextual [hn, effectiveMode_of_singleRate]
  · constructor <;> simp +contextual [hn, effectiveMode_of_singleRate]
    omega

/-- The raising step drives the line high and moves no cursor. -/
theorem CallInv.raise {s : State} (h : CallInv s) (hu : Unhindered s) (hr : Raises s) :
    CallInv (hostEffects (currentMove s) (countTick (raiseCell s))) := by
  obtain ⟨hst, -, -⟩ := hr
  have hb : s.busy = true := h.busy (by simp [hst])
  exact
    { busyIff := by simp [hb]
      cursor := fun _ => h.cursor (.inl hst)
      high := fun _ => pinLevel_raised hu hb
      low := by simp
      durations := h.durations
      singleRate := h.singleRate
      resting := by simp
      held := by simp [hb] }

/-- The last cell of a byte is followed by the next byte of the buffer, if there is one. -/
theorem next_byteIdx_lt {w i n : Nat} (hi : i < n) (hn : n < 2 ^ w) (hne : addMod w i 1 ≠ n) : addMod w i 1 < n := by
  have hmod : (i + 1) % 2 ^ w = i + 1 := Nat.mod_eq_of_lt (by omega)
  rw [addMod, hmod] at hne ⊢
  omega

theorem last_byteIdx {w i n : Nat} (hi : i < n) (hn : n < 2 ^ w) (he : addMod w i 1 = n) : i + 1 = n := by
  rwa [addMod, Nat.mod_eq_of_lt (by omega)] at he

/-- Where a fall leaves `ST` and the cursor: at the next bit, at the next byte, or at rest. -/
theorem lowerCell_cursor (s : State) :
    (s.bitIdx ≠ 0 ∧ (lowerCell s).st = .waitCell ∧ (lowerCell s).byteIdx = s.byteIdx) ∨
    (s.bitIdx = 0 ∧ addMod s.cfg.lenw s.byteIdx 1 ≠ s.len ∧ (lowerCell s).st = .waitCell ∧
      (lowerCell s).byteIdx = addMod s.cfg.lenw s.byteIdx 1) ∨
    (s.bitIdx = 0 ∧ addMod s.cfg.lenw s.byteIdx 1 = s.len ∧ (lowerCell s).st = .latch ∧
      (lowerCell s).byteIdx = s.byteIdx ∧ (lowerCell s).bitIdx = s.bitIdx) := by
  obtain ⟨h0, e⟩ | ⟨h0, h1, e⟩ | ⟨h0, h1, e⟩ := advanceCursor_cases (pinWrite s.pin false s)
  · exact .inl ⟨h0, by simp [lowerCell, e]⟩
  · exact .inr (.inl ⟨h0, h1, by simp [lowerCell, e]⟩)
  · exact .inr (.inr ⟨h0, h1, by simp [lowerCell, e]⟩)

/-- The lowering step drives the line low and puts the cursor at the next bit, or lets it rest at the last. -/
theorem CallInv.lower {s : State} (h : CallInv s) (hlen : s.len < 2 ^ s.cfg.lenw) (hu : Unhindered s) (hl : Lowers s) :
    CallInv (hostEffects (currentMove s) (countTick (lowerCell s))) := by
  obtain ⟨hst, -, -⟩ := hl
  have hb : s.busy = true := h.busy (by simp [hst])
  obtain ⟨hpos, hcur⟩ := h.cursor (.inr hst)
  have hdur := h.durations hb
  have hone := h.singleRate hb
  have hlev := pinLevel_lowered hu hb
  obtain ⟨-, hs, hi⟩ | ⟨-, hne, hs, hi⟩ | ⟨h0, he, hs, hi, hz⟩ := lowerCell_cursor s
  · constructor <;> simp [hb, hlev, hdur, hs, hi, hpos, hcur]
    exact hone
  · have hnext := next_byteIdx_lt hcur hlen hne
    constructor <;> simp [hb, hlev, hdur, hs, hi, hpos, hnext]
    exact hone
  · have hlast := last_byteIdx hcur hlen he
    constructor <;> simp [hb, hlev, hdur, hs, hi, hz, h0, hlast]
    exact hone

/-- A tick in which the block only counts. -/
theorem CallInv.spin {s : State} (h : CallInv s) (hu : Unhindered s) :
    CallInv (hostEffects (currentMove s) (countTick s)) := by
  cases hb : s.busy with
  | false =>
    have hst : s.st = .idle := by
      by_contra hne
      simp [h.busy hne] at hb
    exact .of_idle hst hb (by simp [hb])
  | true =>
    have hlev : pinLevel (hostEffects (currentMove s) (countTick s)) = pinLevel s := pinLevel_hostEffects hu hb rfl
    exact { h with high := hlev ▸ h.high, low := hlev ▸ h.low, held := by simp [hb] }

/-- Every step keeps the invariant of a call; the length has to fit its register for the cursor not to wrap. -/
theorem step_callInv {s t : State} (h : Inv s) (hs : step s = .next t) : CallInv t := by
  obtain ⟨hu, u, hbt, rfl⟩ := step_blockTick hs
  cases hbt with
  | reset => exact .of_idle rfl rfl rfl
  | accept => exact callInv_accept _ _ _ _ _ _
  | raise hr => exact h.call.raise hu hr
  | lower hl => exact h.call.lower h.range.len hu hl
  | finish => exact .of_idle rfl rfl rfl
  | spin => exact h.call.spin hu

/-- Settles O39: each of the six things a tick can do keeps the ranges and the invariant of a call, and so do the host's
writes after it. -/
theorem stepKeepsInvariant : Obligations.StepKeepsInvariant := by
  intro s t h hs
  exact ⟨step_inRange h.range hs, step_callInv h hs⟩

/-- Settles O38: after reset the block is in `IDLE`, and every register holds 0, which is in every range. -/
theorem resetIsCleanEntry : Obligations.ResetIsCleanEntry := by
  refine ⟨rfl, rfl, rfl, ?_, .of_idle rfl rfl rfl⟩
  constructor <;> simp [State.reset, Memory.wf, Memory.wfFrom, Memory.fits]

/-- Settles O40: neither the block nor the host writes the parameters. -/
theorem stepKeepsConfig : Obligations.StepKeepsConfig := by
  intro s t hs
  obtain ⟨-, u, hu, rfl⟩ := step_blockTick hs
  exact hu.cfg

/-! ## Two states that agree on what later steps read (R38) -/

/-- What the block makes of the state in a tick, before the host's writes (R73, R111). -/
def blockNext (s : State) : State :=
  if (currentMove s).ports.rst then resetStep s
  else if s.st = .idle ∧ (currentMove s).ports.start = true then
    accept (effectiveMode s.cfg (currentMove s).ports.cmdMode) (currentMove s).ports.cmdPin (currentMove s).ports.cmdBase
      (currentMove s).ports.cmdLen s
  else microTick s

/-- Whatever operation the selector decodes to, it answers `blockNext`. -/
theorem exec_of_selector {s : State} {i : Instr} (h : decode s.cfg (selector s) = .ok i) :
    exec i s = .next (blockNext s) := by
  unfold selector at h
  unfold blockNext
  split at h
  · next hr =>
    cases h
    rw [if_pos hr]
    rfl
  next hr =>
  rw [if_neg hr]
  split at h
  · next ha =>
    rw [if_pos ha]
    exact (exec_of_command ha.1 h).2
  · next ha =>
    rw [if_neg ha]
    exact exec_of_seqEnc h

/-- Two states with the same parameters, inputs and sequencing state stop alike, and where they go on their next states are
related if the block's are after the host's writes. -/
theorem outcomesAgree_step {rel : State → State → Prop} {s u : State} (hcfg : s.cfg = u.cfg) (hst : s.st = u.st)
    (hm : currentMove s = currentMove u) (hw : foreignWrite s = foreignWrite u)
    (hnext : rel (hostEffects (currentMove s) (blockNext s)) (hostEffects (currentMove u) (blockNext u))) :
    OutcomesAgree rel (step s) (step u) := by
  have hfault : hostFault s = hostFault u := by rw [hostFault, hostFault, hm, hcfg]
  have hsel : selector s = selector u := by rw [selector, selector, hm, hst]
  unfold step runTick
  rw [← hfault, ← hw, ← hsel, ← hcfg]
  cases hostFault s with
  | some f => rfl
  | none =>
    cases foreignWrite s with
    | true => rfl
    | false =>
      cases hd : decode s.cfg (selector s) with
      | error e => rfl
      | ok i =>
        have hdu : decode u.cfg (selector u) = .ok i := by rw [← hcfg, ← hsel, hd]
        show OutcomesAgree rel (afterOperation _ (exec i s)) (afterOperation _ (exec i u))
        rw [exec_of_selector hd, exec_of_selector hdu]
        exact hnext

namespace AgreeOnLive

theorem refl (s : State) : AgreeOnLive s s := by
  simp [AgreeOnLive]

variable {s u : State} (h : AgreeOnLive s u)
include h

theorem cfg_eq : s.cfg = u.cfg := h.1

theorem st_eq : s.st = u.st := by
  obtain ⟨-, -, hst, -⟩ := h
  exact hst

theorem currentMove_eq : currentMove s = currentMove u := by
  obtain ⟨-, -, -, -, -, -, -, -, hhost, -⟩ := h
  rw [currentMove, currentMove, hhost]

theorem foreignWrite_eq : foreignWrite s = foreignWrite u := by
  have hm := h.currentMove_eq
  obtain ⟨-, -, -, hb, -, -, -, -, -, -, -, hpin, -⟩ := h
  unfold foreignWrite
  rw [← hb, ← hm]
  cases hbusy : s.busy with
  | false => rfl
  | true => rw [hpin hbusy]

/-- During a call the two states differ at most in `TSEL` and `PIX`. -/
theorem eq_of_call (hst : s.st ≠ .idle) : u = { s with tsel := u.tsel, pix := u.pix } := by
  obtain ⟨hcfg, hcc, hs, hb, hg, hd, ho, hm, hh, ht, hcall, -⟩ := h
  obtain ⟨href, h0, h1, hp, hi, hj, hpin, hbase, hlen, hmode⟩ := hcall hst
  apply State.ext <;> simp [*]

/-- So the wait for the period ends in the same tick. -/
theorem periodOver_eq (hst : s.st ≠ .idle) : periodOver u = periodOver s := by
  rw [h.eq_of_call hst]
  rfl

/-- While the line is high they differ in nothing. -/
theorem eq_of_waitHigh (hst : s.st = .waitHigh) : u = s := by
  rw [h.eq_of_call (by simp [hst])]
  obtain ⟨-, -, -, -, -, -, -, -, -, -, -, -, -, hhigh⟩ := h
  rw [← (hhigh hst).1, ← (hhigh hst).2]

/-- The byte the next cell is cut from is the same: `PIX` below bit 7, and the memory's at bit 7. -/
theorem currentByte_eq (hst : s.st = .waitCell) : currentByte u = currentByte s := by
  have hu := h.eq_of_call (by simp [hst])
  obtain ⟨-, -, -, -, -, -, -, -, -, -, -, -, hpix, -⟩ := h
  by_cases h7 : s.bitIdx = 7
  · rw [hu]
    simp [currentByte, h7, memRead, byteAddress, currentMove]
  · rw [currentByte_of_ne s h7, hpix ⟨hst, h7⟩, currentByte_of_ne u (by rw [hu]; exact h7)]

/-- So the raising step, which writes `TSEL` and `PIX`, makes them one state. -/
theorem raiseCell_eq (hst : s.st = .waitCell) : raiseCell u = raiseCell s := by
  have hby := h.currentByte_eq hst
  have hu := h.eq_of_call (by simp [hst])
  rw [raiseCell, hby, raiseCell, hu]
  rfl

theorem countTick : AgreeOnLive (countTick s) (countTick u) := by
  obtain ⟨hcfg, hcc, hrest⟩ := h
  exact ⟨hcfg, by simp [hcfg, hcc], hrest⟩

/-- The returning step leaves nothing that a later step reads. -/
theorem finishCall : AgreeOnLive (finishCall s) (finishCall u) := by
  obtain ⟨hcfg, hcc, -, -, hg, hd, ho, hm, hh, ht, -⟩ := h
  simp [AgreeOnLive, *]

/-- The accept step writes every register of a call that a later step reads before it writes it. -/
theorem accept (m : Mode) (p b n : Nat) : AgreeOnLive (accept m p b n s) (accept m p b n u) := by
  obtain ⟨hcfg, hcc, -, -, hg, hd, ho, hm, hh, ht, -⟩ := h
  by_cases hn : n = 0 <;> simp [AgreeOnLive, *]

theorem resetStep : AgreeOnLive (resetStep s) (resetStep u) := by
  obtain ⟨hcfg, hcc, -, -, hg, hd, ho, hm, hh, ht, -⟩ := h
  simp [AgreeOnLive, *]

theorem microTick : AgreeOnLive (microTick s) (microTick u) := by
  cases hst : s.st with
  | idle =>
    rw [microTick_idle s hst, microTick_idle u (h.st_eq ▸ hst)]
    exact h.countTick
  | waitCell =>
    have hover := h.periodOver_eq (by simp [hst])
    rw [microTick_waitCell s hst, microTick_waitCell u (h.st_eq ▸ hst), cellTick, cellTick, hover, h.raiseCell_eq hst]
    split
    · exact refl _
    · exact h.countTick
  | waitHigh =>
    rw [h.eq_of_waitHigh hst]
    exact refl _
  | latch =>
    have hover := h.periodOver_eq (by simp [hst])
    rw [microTick_latch s hst, microTick_latch u (h.st_eq ▸ hst), latchTick, latchTick, hover]
    split
    · exact h.finishCall.countTick
    · exact h.countTick

theorem blockNext : AgreeOnLive (blockNext s) (blockNext u) := by
  rw [Machine.blockNext, Machine.blockNext, ← h.currentMove_eq, ← h.st_eq, ← h.cfg_eq]
  split
  · exact h.resetStep
  · split
    · exact h.accept _ _ _ _
    · exact h.microTick

theorem hostEffects (m : HostMove) : AgreeOnLive (hostEffects m s) (hostEffects m u) := by
  obtain ⟨hcfg, hcc, hs, hb, hg, hd, ho, hm, hh, ht, hcall, hpin, hrest⟩ := h
  have hheld : (!s.busy || (s.outputHeld && lineLevel s.gpioDir s.pin)) =
      (!u.busy || (u.outputHeld && lineLevel u.gpioDir u.pin)) := by
    rw [← hb, ← ho, ← hd]
    cases hbusy : s.busy with
    | false => rfl
    | true => rw [hpin hbusy]
  exact ⟨hcfg, hcc, hs, hb, by simp [hg], by simp [hd], hheld, by simp [hm], by simp [hh], by simp [ht], hcall, hpin,
    hrest⟩

/-- The two look alike: the read address is shown in `WAIT_CELL` only, where it is the same. -/
theorem observe_eq : observe s = observe u := by
  have hread : readAddress s = readAddress u := by
    by_cases hst : s.st = .waitCell
    · rw [h.eq_of_call (by simp [hst])]
      rfl
    · have hst' : u.st ≠ .waitCell := h.st_eq ▸ hst
      simp [readAddress, hst, hst']
  obtain ⟨-, -, -, hb, hg, -⟩ := h
  rw [observe, observe, hb, hg, hread]

end AgreeOnLive

/-- Settles O48: the relation is kept by each operation a tick can select and by the host's writes; the raising step makes
the two states one. -/
theorem noResidueOfEarlierCalls : Obligations.NoResidueOfEarlierCalls := by
  intro s u h
  refine ⟨outcomesAgree_step h.cfg_eq h.st_eq h.currentMove_eq h.foreignWrite_eq ?_, h.observe_eq⟩
  rw [← h.currentMove_eq]
  exact h.blockNext.hostEffects _

/-! ## Which tick writes which register -/

theorem Raises.not_accepts {s : State} (h : Raises s) : ¬ Accepts s := by
  simp [Accepts, h.1]

theorem Lowers.not_accepts {s : State} (h : Lowers s) : ¬ Accepts s := by
  simp [Accepts, h.1]

theorem Returns.not_accepts {s : State} (h : Returns s) : ¬ Accepts s := by
  simp [Accepts, h.1]

/-- Settles O11: in each of the six ticks the transfer of R25 is the one whose condition that tick has. -/
theorem sequencingTransfers : Obligations.SequencingTransfers := by
  intro s t hs p
  obtain ⟨-, u, hu, rfl⟩ := step_blockTick hs
  rw [hostEffects_st]
  cases hu with
  | reset hr => simp [p, hr]
  | accept ha =>
    obtain ⟨hst, hr, hstart⟩ := ha
    simp [p, hst, hr, hstart]
  | raise h =>
    obtain ⟨hst, hr, hd⟩ := h
    simp [p, hst, hr, hd]
  | lower h =>
    obtain ⟨hst, hr, hd⟩ := h
    obtain ⟨h0, e, -⟩ | ⟨h0, hne, e, -⟩ | ⟨h0, he, e, -⟩ := lowerCell_cursor s
    · simp [p, hst, hr, hd, e, h0]
    · rw [addMod_eq] at hne
      simp [p, hst, hr, hd, e, h0, hne]
    · rw [addMod_eq] at he
      simp [p, hst, hr, hd, e, h0, he]
  | finish h =>
    obtain ⟨hst, hr, hd⟩ := h
    simp [p, hst, hr, hd]
  | spin hr ha hra hlo hre =>
    cases hst : s.st with
    | idle =>
      have hstart : (currentMove s).ports.start ≠ true := fun h => ha ⟨hst, hr, h⟩
      simp [p, hst, hr, hstart]
    | waitCell =>
      have hd : ¬ s.period ≤ sinceRef s := fun h => hra ⟨hst, hr, h⟩
      simp [p, hst, hr, hd]
    | waitHigh =>
      have hd : ¬ s.tsel ≤ sinceRef s := fun h => hlo ⟨hst, hr, h⟩
      simp [p, hst, hr, hd]
    | latch =>
      have hd : ¬ s.period ≤ sinceRef s := fun h => hre ⟨hst, hr, h⟩
      simp [p, hst, hr, hd]

/-- Settles O12: of the six ticks only the accept, the return and the reset write `BUSY`. -/
theorem busyWriters : Obligations.BusyWriters := by
  intro s t hs
  obtain ⟨-, u, hu, rfl⟩ := step_blockTick hs
  rw [hostEffects_busy]
  cases hu with
  | reset hr => simp [Accepts, hr]
  | accept ha => simp [ha, ha.1, ha.2.1]
  | raise h => simp [h.not_accepts, h.1, h.2.1]
  | lower h => simp [h.not_accepts, h.1, h.2.1]
  | finish h => simp [h.not_accepts, h.1, h.2]
  | spin hr ha hra hlo hre =>
    have hre' : s.st = .latch → ¬ s.period ≤ sinceRef s := fun hst hd => hre ⟨hst, hr, hd⟩
    simp +contextual [hr, ha, hre']

/-- Settles O13: which registers each of the five ticks without reset writes. -/
theorem dataRegisterWriters : Obligations.DataRegisterWriters := by
  intro s t hs hr
  obtain ⟨-, u, hu, rfl⟩ := step_blockTick hs
  cases hu with
  | reset hrst => simp [hr] at hrst
  | accept ha => simp [ha]
  | raise h => simp [h]
  | lower h => simp [h]
  | finish => simp
  | spin => simp

/-! ## Which operation writes which line -/

theorem lineLevel_microTick {s : State} {q : Nat} (hq : q ≠ s.pin) :
    lineLevel (microTick s).gpioOut q = lineLevel s.gpioOut q := by
  obtain h | ⟨-, -, h⟩ | ⟨-, -, h⟩ | ⟨-, -, h⟩ := microTick_cases s <;> simp [h, lineLevel_setLine, hq]

/-- A command drives no line in its accept tick, and during a call its tick is that of the micro-operation. -/
theorem lineLevel_presentCommand (m : Mode) (p b n : Nat) {s : State} {q : Nat} (hq : s.st = .idle ∨ q ≠ s.pin) :
    lineLevel (presentCommand m p b n s).gpioOut q = lineLevel s.gpioOut q := by
  obtain ⟨-, h⟩ | ⟨hst, h⟩ := presentCommand_cases m p b n s
  · simp [h]
  · rw [h]
    exact lineLevel_microTick (hq.resolve_left hst)

/-- Settles O27: an operation writes the line it drives and no other. -/
theorem otherLinesUnchanged : Obligations.OtherLinesUnchanged := by
  intro i s t h q
  cases i <;> cases h
  case txFast pin base len => exact lineLevel_presentCommand _ _ _ _
  case txSlow pin base len => exact lineLevel_presentCommand _ _ _ _
  case idle => rfl
  case cellwait =>
    intro hq
    obtain e | e := cellTick_cases s <;> simp [e, lineLevel_setLine, hq]
  case highwait =>
    intro hq
    obtain e | e := highTick_cases s <;> simp [e, lineLevel_setLine, hq]
  case latchwait => obtain e | e := latchTick_cases s <;> simp [e]
  case sym0 => rfl
  case sym1 => rfl
  case pinclr p =>
    intro hq
    simp [lineLevel_setLine, hq]
  case pinset p =>
    intro hq
    simp [lineLevel_setLine, hq]
  case ccread => rfl
  case rst => exact Nat.zero_testBit q

/-- Settles O29: below bit 7 the raising step takes its byte from `PIX`, and the wait does not look at memory. -/
theorem latchedByteServesLowerBits : Obligations.LatchedByteServesLowerBits := by
  intro s t m h7 h
  cases h
  show Host.Outcome.next (cellTick { s with mem := m }) = .next { cellTick s with mem := m }
  have hs := currentByte_of_ne s h7
  have hm := currentByte_of_ne { s with mem := m } h7
  have hover : periodOver { s with mem := m } = periodOver s := rfl
  rw [cellTick, cellTick, hover]
  split
  · rw [raiseCell, raiseCell, hs, hm]
    rfl
  · rfl

/-! ## The wire -/

/-- The wire of an output line that no call drives. -/
theorem wire_of_ne_callLine {s : State} {q : Nat} (hd : lineLevel s.gpioDir q = true) (hc : callLine s ≠ some q) :
    wire s q = lineLevel s.gpioOut q := by
  simp [wire, hd, hc]

theorem callLine_of_busy {s : State} (hb : s.busy = true) : callLine s = some s.pin := by
  simp [callLine, hb]

/-- The wire of the line of a call that has been an output in every tick of it and stays one. -/
theorem wire_pin_of_busy {s : State} (hb : s.busy = true) (hh : s.outputHeld = true) (ho : OutputUntilReturn s.pin s) :
    wire s s.pin = lineLevel s.gpioOut s.pin :=
  (wire_of_callLine (callLine_of_busy hb)).1 ⟨hh, ho⟩

/-- A tick later the wire of that line still follows its bit. A command accepted in this tick, which a busy block outside
`IDLE` never does, may have taken the call to another line; then no call drives this one. -/
theorem wire_pin_next {s t : State} (hh : s.outputHeld = true) (ho : OutputUntilReturn s.pin s) (hs : step s = .next t)
    (hbt : t.busy = true) : wire t s.pin = lineLevel t.gpioOut s.pin := by
  have hot : OutputUntilReturn s.pin t := ((outputUntilReturn_iff _ _).1 ho).2 t hs hbt
  by_cases hp : t.pin = s.pin
  · obtain ⟨-, -, hmicro, hacc⟩ := step_next_outside hs
    have hht : t.outputHeld = (s.outputHeld && lineLevel s.gpioDir s.pin) := by
      by_cases ha : Accepts s
      · rw [(hacc hbt ha).2, hp]
      · exact (hmicro hbt ha).2
    rw [hh, ho.now] at hht
    rw [← hp] at hot ⊢
    exact wire_pin_of_busy hbt hht hot
  · refine wire_of_ne_callLine hot.now ?_
    rw [callLine_of_busy hbt]
    simpa using hp

theorem step_of_raises {s t : State} (h : step s = .next t) (hr : Raises s) :
    t = hostEffects (currentMove s) (countTick (raiseCell s)) := by
  obtain ⟨-, ⟨hrst, -⟩ | ⟨ha, -⟩ | ⟨-, -, rfl⟩⟩ := step_next_cases h
  · simp [hr.2.1] at hrst
  · exact absurd ha hr.not_accepts
  · rw [microTick_waitCell s hr.1, cellTick_of_due s hr.2.2]

theorem step_of_lowers {s t : State} (h : step s = .next t) (hl : Lowers s) :
    t = hostEffects (currentMove s) (countTick (lowerCell s)) := by
  obtain ⟨-, ⟨hrst, -⟩ | ⟨ha, -⟩ | ⟨-, -, rfl⟩⟩ := step_next_cases h
  · simp [hl.2.1] at hrst
  · exact absurd ha hl.not_accepts
  · rw [microTick_waitHigh s hl.1, highTick_of_due s hl.2.2]

/-- Settles O34: while the call goes on the wire of its line is the line's bit of `GPIO_OUT`, and no other agent writes that
bit in the tick of the rise or of the fall. -/
theorem wireFollowsWrite : Obligations.WireFollowsWrite := by
  intro s
  refine ⟨fun q => wire_of_ne_callLine, fun hb hh ho => ⟨wire_pin_of_busy hb hh ho, fun t hs => ?_⟩⟩
  have hu : Unhindered s := (step_next_cases hs).1
  refine ⟨wire_pin_next hh ho hs, fun hr => ?_, fun hl => ?_⟩
  · have ht := step_of_raises hs hr
    calc wire t s.pin
      _ = lineLevel t.gpioOut s.pin := wire_pin_next hh ho hs (by simpa [ht] using hb)
      _ = pinLevel t := by simp [pinLevel, ht]
      _ = true := ht ▸ pinLevel_raised hu hb
  · have ht := step_of_lowers hs hl
    calc wire t s.pin
      _ = lineLevel t.gpioOut s.pin := wire_pin_next hh ho hs (by simpa [ht] using hb)
      _ = pinLevel t := by simp [pinLevel, ht]
      _ = false := ht ▸ pinLevel_lowered hu hb

end Sys2Proof.Machine

/-! PROOFS. What an operation leaves outside the block, what the host's writes of a tick leave, and the tick in which a
call reads each byte of its buffer. -/

namespace Sys2Proof.Machine

/-! ## What is outside the block -/

/-- The two states have the same parameters, direction bits, buffer memory, host and tick number (R28, R32, R41). -/
structure SameOutside (s t : State) : Prop where
  cfg : t.cfg = s.cfg
  gpioDir : t.gpioDir = s.gpioDir
  outputHeld : t.outputHeld = s.outputHeld
  mem : t.mem = s.mem
  host : t.host = s.host
  tick : t.tick = s.tick

theorem microTick_sameOutside (s : State) : SameOutside s (microTick s) := by
  obtain ⟨hdir, hmem, hhost, htick⟩ := microTick_outside s
  exact ⟨microTick_cfg s, hdir, (microTick_pin s).2, hmem, hhost, htick⟩

theorem presentCommand_sameOutside (m : Mode) (p b n : Nat) (s : State) :
    SameOutside s (presentCommand m p b n s) := by
  obtain ⟨-, h⟩ | ⟨-, h⟩ := presentCommand_cases m p b n s <;> rw [h]
  · exact ⟨rfl, rfl, rfl, rfl, rfl, rfl⟩
  · exact microTick_sameOutside s

/-- The operations write registers of the block only: the memory read port has no write side (R43). -/
theorem exec_sameOutside {i : Instr} {s t : State} (h : exec i s = .next t) : SameOutside s t := by
  cases i <;> cases h
  case txFast pin base len => exact presentCommand_sameOutside _ _ _ _ s
  case txSlow pin base len => exact presentCommand_sameOutside _ _ _ _ s
  case cellwait => obtain e | e := cellTick_cases s <;> constructor <;> simp [e]
  case highwait => obtain e | e := highTick_cases s <;> constructor <;> simp [e]
  case latchwait => obtain e | e := latchTick_cases s <;> constructor <;> simp [e]
  all_goals exact ⟨rfl, rfl, rfl, rfl, rfl, rfl⟩

/-- Settles O26: no operation touches what is outside the block, so each byte of the memory reads as before. -/
theorem outsideUnchanged : Obligations.OutsideUnchanged := by
  intro i s t h
  have ho := exec_sameOutside h
  exact ⟨ho.cfg, ho.gpioDir, ho.outputHeld, fun a => by rw [ho.mem], ho.host, ho.tick⟩

/-! ## The host's writes of a tick -/

/-- Settles O30: the raising step at bit 7 latches what `MemRead` returns, which is the byte as it stands or the last one
the host writes there in this tick. -/
theorem racingReadOldOrNew : Obligations.RacingReadOldOrNew := by
  intro s b h7 hd hw
  have ht : (cellTick s).pix = memRead s (byteAddress s) := by
    rw [cellTick_of_due s hd, countTick_pix, raiseCell_pix, currentByte_of_eq s h7]
  refine ⟨cellTick s, rfl, ?_⟩
  obtain hold | hnew := memRead_cases s (byteAddress s)
  · exact .inr (ht.trans hold)
  · rw [byteWrittenNow_eq_lastWrite] at hnew
    exact .inl (ht.trans (Option.some.inj (hnew.symm.trans hw)))

theorem step_next_mem {s t : State} (h : step s = .next t) : t.mem = s.mem.writeAll (currentMove s).memWrites := by
  obtain ⟨-, i, u, -, hx, rfl⟩ := step_next_inv h
  rw [hostEffects_mem, (exec_sameOutside hx).mem]

/-- Without reset only the raising and the lowering step write a line, and they write `PIN`. -/
theorem BlockTick.lineLevel_eq {s u : State} (hu : BlockTick s u) (hr : (currentMove s).ports.rst = false) {q : Nat}
    (hq : q ≠ s.pin ∨ (¬ Raises s ∧ ¬ Lowers s)) : lineLevel u.gpioOut q = lineLevel s.gpioOut q := by
  cases hu with
  | reset hrst => simp [hr] at hrst
  | accept => rfl
  | raise h =>
    have hne : q ≠ s.pin := hq.resolve_right fun hn => hn.1 h
    simp [lineLevel_setLine, hne]
  | lower h =>
    have hne : q ≠ s.pin := hq.resolve_right fun hn => hn.2 h
    simp [lineLevel_setLine, hne]
  | finish => rfl
  | spin => rfl

/-- Settles O31: the host's writes follow the block's operation, which writes neither memory nor `GPIO_DIR`, and at each
place the last of them stands. -/
theorem hostWritesLandNextTick : Obligations.HostWritesLandNextTick := by
  intro s t hs hwf
  refine ⟨fun a => ?_, fun q => ?_, fun hr q hq => ?_⟩
  · rw [step_next_mem hs, Memory.read_writeAll hwf]
  · rw [(step_next_outside hs).2.1, lineLevel_setLines]
  · obtain ⟨-, u, hu, rfl⟩ := step_blockTick hs
    simp only [hostEffects_gpioOut, hr, Bool.false_eq_true, if_false]
    rw [lineLevel_setLines, hu.lineLevel_eq hr hq]

/-! ## Host moves to places that do not exist -/

theorem step_of_hostFault {s : State} {f : Fault} (h : hostFault s = some f) : step s = .fault f := by
  simp [step, runTick, h]

theorem memWrites_fit_iff (s : State) :
    (currentMove s).memWrites.all (fun cell => s.cfg.baseFits cell.1) = true ↔
      ∀ w ∈ (currentMove s).memWrites, w.1 < 2 ^ s.cfg.aw := by
  simp

theorem hostFault_of_absent_address {s : State} (h : ∃ w ∈ (currentMove s).memWrites, 2 ^ s.cfg.aw ≤ w.1) :
    hostFault s = some .noSuchAddress := by
  obtain ⟨w, hw, hle⟩ := h
  have hout : ¬ (currentMove s).memWrites.all (fun cell => s.cfg.baseFits cell.1) = true := fun hall =>
    absurd ((memWrites_fit_iff s).1 hall w hw) (Nat.not_lt.2 hle)
  rw [hostFault, if_neg hout]

theorem hostFault_of_absent_line {s : State} (hm : ∀ w ∈ (currentMove s).memWrites, w.1 < 2 ^ s.cfg.aw)
    (h : ∃ w ∈ (currentMove s).pinWrites ++ (currentMove s).dirWrites, 2 ^ s.cfg.pinw ≤ w.1) :
    hostFault s = some .noSuchLine := by
  obtain ⟨w, hw, hle⟩ := h
  have hout : ¬ ((currentMove s).pinWrites.all (fun w => s.cfg.pinFits w.1) &&
      (currentMove s).dirWrites.all (fun w => s.cfg.pinFits w.1)) = true := by
    rw [← List.all_append]
    exact fun hall => absurd ((Config.pinFits_iff _ _).1 (List.all_eq_true.1 hall w hw)) (Nat.not_lt.2 hle)
  rw [hostFault, if_pos ((memWrites_fit_iff s).2 hm), if_neg hout]

/-- Settles O33: the tick looks for absent addresses first and for absent lines next, before anything is selected. -/
theorem absentPlacesFault : Obligations.AbsentPlacesFault := fun _ =>
  ⟨fun h => step_of_hostFault (hostFault_of_absent_address h),
    fun hm h => step_of_hostFault (hostFault_of_absent_line hm h)⟩

/-! ## The ticks of a call

The steps from each phase of a cell to the next, counted from the accept tick. -/

/-- `n` ticks after the accept tick `s` the machine runs and its state meets `P`, a phase of the call that is told how many
ticks are left until the return. -/
def Call.At (call : Call) (P : Nat → State → Prop) (n : Nat) (s : State) : Prop :=
  ∃ t, stateAfter n s = some t ∧ P (call.rise (8 * call.len) - n) t

section
variable {call : Call} {s : State} {P Q : Nat → State → Prop}

theorem Call.At.imp {n : Nat} (h : call.At P n s) (hPQ : ∀ r u, P r u → Q r u) : call.At Q n s := by
  obtain ⟨t, ht, hp⟩ := h
  exact ⟨t, ht, hPQ _ t hp⟩

theorem stateAfter_succ_of_step {n : Nat} {t u : State} (h : stateAfter n s = some t) (hu : step t = .next u) :
    stateAfter (n + 1) s = some u := by
  rw [stateAfter_add n 1 h, stateAfter_one hu]

/-- One more tick of the call. -/
theorem Call.At.after_step {n m : Nat} (h : call.At P n s) (hm : m = n + 1) (hn : m ≤ call.rise (8 * call.len))
    (hstep : ∀ r u, P (r + 1) u → ∃ t, step u = .next t ∧ Q r t) : call.At Q m s := by
  obtain ⟨t, ht, hp⟩ := h
  have hleft : call.rise (8 * call.len) - n = call.rise (8 * call.len) - m + 1 := by omega
  obtain ⟨u, hu, hq⟩ := hstep _ t (hleft ▸ hp)
  exact ⟨u, hm ▸ stateAfter_succ_of_step ht hu, hq⟩

/-! ### The ticks counted -/

theorem Call.rise_succ (call : Call) (k : Nat) : call.rise (k + 1) = call.rise k + call.cellTicks k := rfl

theorem Call.rise_strictMono (call : Call) : StrictMono call.rise :=
  strictMono_nat_of_lt_succ fun k => Nat.lt_add_of_pos_right (Nat.lt_of_lt_of_le Nat.zero_lt_two (call.two_le_cellTicks k))

theorem Call.highTicks_lt_cellTicks (call : Call) (k : Nat) : call.highTicks k < call.cellTicks k :=
  Nat.le_max_right _ _

/-- Every tick from the first rise to the return is a tick of one cell. -/
theorem Call.exists_cell (call : Call) {n K : Nat} (h2 : 2 ≤ n) (hn : n < call.rise K) :
    ∃ k < K, ∃ j < call.cellTicks k, n = call.rise k + j := by
  induction K with
  | zero => exact absurd hn (Nat.not_lt.2 h2)
  | succ K ih =>
    rw [call.rise_succ] at hn
    by_cases hK : n < call.rise K
    · obtain ⟨k, hk, hj⟩ := ih hK
      exact ⟨k, Nat.lt_succ_of_lt hk, hj⟩
    · exact ⟨K, Nat.lt_succ_self K, n - call.rise K, by omega, by omega⟩

/-- Where the durations fit the counter, so does the high phase of a cell. -/
theorem Call.highTicks_lt (hf : call.fitsCounter) (k : Nat) : call.highTicks k < 2 ^ call.cfg.ccw := by
  obtain ⟨h1, h0⟩ := hf
  unfold Call.highTicks Call.target
  split <;> omega

theorem Call.period_lt (hf : call.fitsCounter) : call.period < 2 ^ call.cfg.ccw := by
  have h := hf.1
  omega

/-- At the end of a cell the period is over. Only where it is 0 can the counter have wrapped by then, in a cell of two
ticks. -/
theorem Call.period_le_cellTicks_mod (hf : call.fitsCounter) (k : Nat) :
    call.period ≤ call.cellTicks k % 2 ^ call.cfg.ccw := by
  by_cases hp : call.period = 0
  · omega
  have hlt : call.cellTicks k < 2 ^ call.cfg.ccw := by
    obtain ⟨h1, h0⟩ := hf
    unfold Call.cellTicks Call.highTicks Call.target
    split <;> omega
  rw [Nat.mod_eq_of_lt hlt]
  exact Nat.le_max_left _ _

/-! ### The phases of each cell -/

/-- A cell has fallen and its time is over: the next one is about to rise. -/
theorem Call.Low.ready {k j r : Nat} {u : State} (h : call.Low k j r u) (hf : call.fitsCounter)
    (hk : k + 1 < 8 * call.len) (hj : j + 1 = call.cellTicks k) : call.Ready (k + 1) r u :=
  { h.toRuns with
    st := h.st.trans (if_pos hk)
    byteIdx := h.byteIdx hk
    bitIdx := h.bitIdx hk
    pix := fun h0 => by
      have hsame : (k + 1) / 8 = k / 8 := by omega
      rw [h.pix, hsame]
    due := by
      rw [h.period, h.since, hj]
      exact Call.period_le_cellTicks_mod hf k }

variable (hf : call.fitsCounter)
include hf

/-- From the tick before its rise a cell is high for `highTicks` ticks (R89). -/
theorem Call.high_of_ready {k : Nat} (hk : k < 8 * call.len)
    (h : call.At (call.Ready k) (call.rise k - 1) s) {j : Nat} (hj : j < call.highTicks k) :
    call.At (call.High k j) (call.rise k + j) s := by
  have hcell := call.highTicks_lt_cellTicks k
  have hend : call.rise k + call.cellTicks k ≤ call.rise (8 * call.len) := call.rise_strictMono.monotone hk
  have h2 := call.two_le_rise k
  induction j with
  | zero =>
    refine h.after_step (by omega) (by omega) fun r u hu => ?_
    obtain ⟨t, ht, hhigh, -⟩ := hu.rises hk
    exact ⟨t, ht, hhigh⟩
  | succ j ih =>
    have hlt := Call.highTicks_lt hf k
    have htarget : j + 1 < call.target k := by
      unfold Call.highTicks at hj
      omega
    refine (ih (by omega)).after_step rfl (by omega) fun r u hu => ?_
    obtain ⟨t, ht, hhigh, -⟩ := hu.spin (by omega) htarget
    exact ⟨t, ht, hhigh⟩

/-- And then low for the rest of its time (R90). -/
theorem Call.low_of_ready {k : Nat} (hk : k < 8 * call.len)
    (h : call.At (call.Ready k) (call.rise k - 1) s) {j : Nat} (hlo : call.highTicks k ≤ j) (hj : j < call.cellTicks k) :
    call.At (call.Low k j) (call.rise k + j) s := by
  have hend : call.rise k + call.cellTicks k ≤ call.rise (8 * call.len) := call.rise_strictMono.monotone hk
  induction j, hlo using Nat.le_induction with
  | base =>
    obtain ⟨j, e⟩ : ∃ j, call.highTicks k = j + 1 := ⟨call.highTicks k - 1, by unfold Call.highTicks; omega⟩
    have hlt := Call.highTicks_lt hf k
    have htarget : call.target k ≤ j + 1 := e ▸ Nat.le_max_left _ _
    rw [e] at hj ⊢
    refine (Call.high_of_ready hf hk h (j := j) (by omega)).after_step rfl (by omega) fun r u hu => ?_
    obtain ⟨t, ht, hlow, -⟩ := hu.lower hk (by omega) htarget
    exact ⟨t, ht, hlow⟩
  | succ j hlo ih =>
    have hlt := Call.period_lt hf
    have hperiod : j + 1 < call.period := by
      unfold Call.cellTicks at hj
      omega
    refine (ih (by omega)).after_step rfl (by omega) fun r u hu => ?_
    obtain ⟨t, ht, hlow, -⟩ := hu.spin (by omega) hperiod
    exact ⟨t, ht, hlow⟩

variable (hs : call.Starts s)
include hs

/-- Each cell is about to rise in the tick before its rise. -/
theorem Call.Starts.ready {k : Nat} (hk : k < 8 * call.len) : call.At (call.Ready k) (call.rise k - 1) s := by
  induction k with
  | zero =>
    obtain ⟨t, ht, hruns, hst, hbyte, hbit, hdue, -⟩ := hs.accepted hf
    have hlen : call.len ≠ 0 := by omega
    exact ⟨t, stateAfter_one ht,
      { hruns with
        st := hst.trans (if_neg hlen), byteIdx := hbyte, bitIdx := by simp [hbit], pix := by simp, due := hdue }⟩
  | succ k ih =>
    have hpos := call.two_le_cellTicks k
    have hlow := Call.low_of_ready hf (by omega) (ih (by omega)) (j := call.cellTicks k - 1)
      (Nat.le_sub_one_of_lt (call.highTicks_lt_cellTicks k)) (by omega)
    have hrise : call.rise (k + 1) - 1 = call.rise k + (call.cellTicks k - 1) := by
      rw [call.rise_succ]
      omega
    rw [hrise]
    exact hlow.imp fun r u hu => hu.ready hf hk (by omega)

theorem Call.Starts.high {k j : Nat} (hk : k < 8 * call.len) (hj : j < call.highTicks k) :
    call.At (call.High k j) (call.rise k + j) s :=
  Call.high_of_ready hf hk (hs.ready hf hk) hj

theorem Call.Starts.low {k j : Nat} (hk : k < 8 * call.len) (hlo : call.highTicks k ≤ j) (hj : j < call.cellTicks k) :
    call.At (call.Low k j) (call.rise k + j) s :=
  Call.low_of_ready hf hk (hs.ready hf hk) hlo hj

end

/-! ## The reads of a call -/

theorem readAddress_eq_none {s : State} (h : s.st ≠ .waitCell ∨ sinceRef s < s.period ∨ s.bitIdx ≠ 7) :
    readAddress s = none := by
  refine if_neg ?_
  rintro ⟨-, hst, hover, h7⟩
  obtain hne | hlt | hne := h
  · exact hne hst
  · exact absurd ((periodOver_iff s).1 hover) (Nat.not_le.2 hlt)
  · exact hne h7

section
variable {call : Call} {k j r : Nat} {u : State}

theorem Call.Ready.bitIdx_eq_iff (h : call.Ready k r u) : u.bitIdx = 7 ↔ k % 8 = 0 := by
  have hv := h.bitIdx
  rw [Fin.ext_iff, hv]
  show 7 - k % 8 = 7 ↔ _
  omega

/-- Before the first cell of a byte that byte is read. -/
theorem Call.Ready.readAddress_eq (h : call.Ready k (r + 1) u) (h8 : k % 8 = 0) :
    readAddress u = some ((call.base + k / 8) % 2 ^ call.cfg.aw) := by
  have hread : readAddress u = some (byteAddress u) :=
    if_pos ⟨h.move.1, h.st, (periodOver_iff u).2 h.due, h.bitIdx_eq_iff.2 h8⟩
  rw [hread, byteAddress, addMod_eq, h.base, h.byteIdx, h.cfg]

/-- Before any other cell nothing is read. -/
theorem Call.Ready.readAddress_eq_none (h : call.Ready k r u) (h8 : k % 8 ≠ 0) : readAddress u = none :=
  Machine.readAddress_eq_none (.inr (.inr fun h7 => h8 (h.bitIdx_eq_iff.1 h7)))

theorem Call.High.readAddress_eq_none (h : call.High k j r u) : readAddress u = none :=
  Machine.readAddress_eq_none (.inl (by simp [h.st]))

/-- In the low phase nothing is read before its last tick, and in that of the last cell not there either. -/
theorem Call.Low.readAddress_eq_none (h : call.Low k j r u) (hf : call.fitsCounter) (hlo : call.highTicks k ≤ j)
    (hj : j + 1 < call.cellTicks k ∨ ¬ k + 1 < 8 * call.len) : readAddress u = none := by
  obtain hj | hlast := hj
  · have hperiod : j + 1 < call.period := by
      unfold Call.cellTicks at hj
      omega
    have hlt := Call.period_lt hf
    refine Machine.readAddress_eq_none (.inr (.inl ?_))
    rw [h.since, h.period, Nat.mod_eq_of_lt (by omega)]
    exact hperiod
  · exact Machine.readAddress_eq_none (.inl (by simp [h.st, hlast]))

end

/-- Every tick of a call, its accept tick among them, is the one before the rise of a cell, or reads nothing. -/
theorem Call.Starts.ready_or_no_read {call : Call} {s : State} (hs : call.Starts s) (hf : call.fitsCounter) {n : Nat}
    (hn : n < call.rise (8 * call.len)) :
    (∃ k < 8 * call.len, n + 1 = call.rise k ∧ call.At (call.Ready k) n s) ∨
    ((∀ k < 8 * call.len, n + 1 ≠ call.rise k) ∧ call.At (fun _ u => readAddress u = none) n s) := by
  have hready : ∀ k < 8 * call.len, n + 1 = call.rise k → call.At (call.Ready k) n s := fun k hk e => by
    have hn : n = call.rise k - 1 := by omega
    exact hn ▸ hs.ready hf hk
  by_cases hrise : ∃ k < 8 * call.len, n + 1 = call.rise k
  · obtain ⟨k, hk, e⟩ := hrise
    exact .inl ⟨k, hk, e, hready k hk e⟩
  push Not at hrise
  refine .inr ⟨hrise, ?_⟩
  obtain rfl | rfl | h2 : n = 0 ∨ n = 1 ∨ 2 ≤ n := by omega
  · exact ⟨s, rfl, readAddress_eq_none (.inl (by simp [hs.st]))⟩
  · obtain ⟨t, ht, -, hst, -⟩ := hs.accepted hf
    have hlen : call.len = 0 := by
      by_contra hne
      exact hrise 0 (by omega) rfl
    exact ⟨t, stateAfter_one ht, readAddress_eq_none (.inl (by simp [hst, hlen]))⟩
  · obtain ⟨k, hk, j, hj, rfl⟩ := call.exists_cell h2 hn
    by_cases hhigh : j < call.highTicks k
    · exact (hs.high hf hk hhigh).imp fun r u hu => hu.readAddress_eq_none
    · have hlo : call.highTicks k ≤ j := Nat.le_of_not_lt hhigh
      have hend : j + 1 < call.cellTicks k ∨ ¬ k + 1 < 8 * call.len := by
        by_contra hc
        push Not at hc
        refine hrise (k + 1) hc.2 ?_
        rw [call.rise_succ]
        omega
      exact (hs.low hf hk hlo hj).imp fun r u hu => hu.readAddress_eq_none hf hlo hend

/-- Settles O47: the tick before the rise of cell `8 * i` reads byte `i`, the ticks before the other rises take their bit
from `PIX`, and the rest of the call is not at the end of a wait of `CELLWAIT`. -/
theorem bytesReadOnce : Obligations.BytesReadOnce := by
  intro call s hs hf n hn
  obtain ⟨k, hk, hrise, t, ht, hu⟩ | ⟨hrise, t, ht, hnone⟩ := hs.ready_or_no_read hf hn
  · have hleft : call.rise (8 * call.len) - n = call.rise (8 * call.len) - n - 1 + 1 := by omega
    refine ⟨t, ht, fun i hi e => ?_, fun hne => ?_⟩
    · obtain rfl : k = 8 * i := call.rise_strictMono.injective (hrise.symm.trans e)
      have hread := (hleft ▸ hu).readAddress_eq (Nat.mul_mod_right 8 i)
      rwa [Nat.mul_div_cancel_left i (by decide)] at hread
    · refine hu.readAddress_eq_none fun h8 => hne (k / 8) (by omega) ?_
      rw [hrise, Nat.mul_div_cancel' (Nat.dvd_of_mod_eq_zero h8)]
  · exact ⟨t, ht, fun i hi e => absurd e (hrise (8 * i) (by omega)), fun _ => hnone⟩

end Sys2Proof.Machine

/-! PROOFS. The encodings and what they decode to. -/

namespace Sys2Proof.Machine

/-! ## Decoder and encoder -/

/-- The decoder finds every operation again in its encoding, and all it can say against it is that an operand is too wide. -/
theorem decode_encode (c : Config) (i : Instr) : decode c (encode i) = checkOperands c i := by
  cases i <;> rfl

theorem checkOperands_of_wf {c : Config} {i : Instr} (h : i.wf c = true) : checkOperands c i = .ok i := if_pos h

/-- The fields of an encoding fit where the operands of the operation do (R57). -/
theorem fits_encode (c : Config) (i : Instr) : (encode i).fits c = i.wf c := by
  cases i with
  | txFast pin base len => exact Bool.and_right_comm _ _ _
  | txSlow pin base len => exact Bool.and_right_comm _ _ _
  | _ => rfl

/-- Every encoding is that of an operation, except a command port with `start = 0` (R57, R70). -/
theorem noCommand_or_encode (e : Enc) :
    (∃ mode pin len base, e = .cmd false mode pin len base) ∨ ∃ i, e = encode i := by
  match e with
  | .cmd false mode pin len base => exact .inl ⟨mode, pin, len, base, rfl⟩
  | .cmd true true pin len base => exact .inr ⟨.txFast pin base len, rfl⟩
  | .cmd true false pin len base => exact .inr ⟨.txSlow pin base len, rfl⟩
  | .st false false => exact .inr ⟨.idle, rfl⟩
  | .st false true => exact .inr ⟨.cellwait, rfl⟩
  | .st true false => exact .inr ⟨.highwait, rfl⟩
  | .st true true => exact .inr ⟨.latchwait, rfl⟩
  | .cell false => exact .inr ⟨.sym0, rfl⟩
  | .cell true => exact .inr ⟨.sym1, rfl⟩
  | .lvl false p => exact .inr ⟨.pinclr p, rfl⟩
  | .lvl true p => exact .inr ⟨.pinset p, rfl⟩
  | .bare false => exact .inr ⟨.ccread, rfl⟩
  | .bare true => exact .inr ⟨.rst, rfl⟩

/-- Settles O1: the decoder gives back the operation up to the operand check, which a fitting operation passes. -/
theorem decodeOfEncode : Obligations.DecodeOfEncode := fun c i h =>
  (decode_encode c i).trans (checkOperands_of_wf h)

/-- Settles O2: a command port with `start = 0` does not decode, and from the encoding of an operation the decoder gets that
operation and no other. -/
theorem encodeOfDecode : Obligations.EncodeOfDecode := by
  intro c e i h
  obtain ⟨mode, pin, len, base, rfl⟩ | ⟨j, rfl⟩ := noCommand_or_encode e
  · cases h
  · obtain ⟨rfl, hwf⟩ := checkOperands_ok ((decode_encode c j).symm.trans h)
    exact ⟨rfl, hwf⟩

/-- Settles O3: every other fitting encoding is that of an operation, whose operands then fit, and O1 decodes it. -/
theorem noReservedEncoding : Obligations.NoReservedEncoding := by
  intro c e h
  obtain hno | ⟨i, rfl⟩ := noCommand_or_encode e
  · exact .inr hno
  · exact .inl ⟨i, decodeOfEncode c i ((fits_encode c i).symm.trans h)⟩

/-- Settles O4: each word is the encoding of its operation, whose operands fit the standard ports. -/
theorem specWordsDecode : Obligations.SpecWordsDecode :=
  have word (i : Instr) (h : i.wf Config.standard = true) := decodeOfEncode Config.standard i h
  ⟨word (.txFast 5 0x100 1) (by decide), word (.txSlow 2 0x2000 2) (by decide), word .idle rfl, word .cellwait rfl,
    word .highwait rfl, word .latchwait rfl, word .sym0 rfl, word .sym1 rfl, word (.pinclr 15) (by decide),
    word (.pinset 5) (by decide), word .rst rfl⟩

/-! ## The mode of a single-rate build -/

theorem presentCommand_of_singleRate {s : State} (h : s.cfg.dualRate = false) (m : Mode) (p b n : Nat) :
    presentCommand m p b n s = presentCommand .fast p b n s := by
  simp only [presentCommand, effectiveMode_of_singleRate h]

/-- Settles O18: the commands differ in the mode they present, of which a single-rate build makes FAST. -/
theorem singleRateIgnoresMode : Obligations.SingleRateIgnoresMode := by
  intro s pin base len h
  refine ⟨congrArg _ (presentCommand_of_singleRate h .slow pin base len), fun hst => ⟨_, rfl, ?_⟩⟩
  rw [presentCommand_idle _ _ _ _ s hst, accept_mode, effectiveMode_of_singleRate h]

end Sys2Proof.Machine

/-! PROOFS. The durations of a call and their order. -/

namespace Sys2Proof.Machine

/-- Settles O35: where `F_TICK` itself fits the counter, no quotient of it is cut. -/
theorem durationTable : Obligations.DurationTable := fun c h =>
  have quotient (d : Nat) := zextCcw_div c.ccw c.fTick d h
  ⟨quotient 2500000, quotient 1250000, quotient 800000, quotient 2000000, quotient 833333, quotient 400000⟩

/-- Settles O36: from 2.5 MHz on the quotients of one mode differ by one tick at least. -/
theorem durationsStrictlyOrdered : Obligations.DurationsStrictlyOrdered := by
  intro c m ⟨hlow, hfit⟩
  obtain ⟨ht0hFast, ht1hFast, hperiodFast, ht0hSlow, ht1hSlow, hperiodSlow⟩ := durationTable c hfit
  cases m with
  | fast => omega
  | slow => omega

/-- In both modes the divisor of `T1H` is the smaller one. -/
theorem t0hOf_le_t1hOf {c : Config} (h : c.fTick < 2 ^ c.ccw) (m : Mode) : t0hOf c m ≤ t1hOf c m := by
  obtain ⟨ht0hFast, ht1hFast, -, ht0hSlow, ht1hSlow, -⟩ := durationTable c h
  cases m with
  | fast => omega
  | slow => omega

/-- A period of one tick or more is so far below `F_TICK` that the counter has room for a tick beyond it. -/
theorem periodOf_succ_lt {c : Config} (h : c.fTick < 2 ^ c.ccw) {m : Mode} (hp : 1 ≤ periodOf c m) :
    periodOf c m + 1 < 2 ^ c.ccw := by
  obtain ⟨-, -, hperiodFast, -, -, hperiodSlow⟩ := durationTable c h
  cases m with
  | fast => omega
  | slow => omega

/-- In a nominal call no duration exceeds `PERIOD`, for which the counter has room. -/
theorem Call.nominal.fitsCounter {call : Call} (h : call.nominal) (hfit : call.cfg.fTick < 2 ^ call.cfg.ccw) :
    call.fitsCounter := by
  obtain ⟨ht0h, hle, hlt⟩ := h
  have room : call.period + 1 < 2 ^ call.cfg.ccw := periodOf_succ_lt hfit (Nat.one_le_of_lt hlt)
  exact ⟨by omega, by omega⟩

/-- Settles O52: `T0H <= T1H` holds of the quotients, a nominal call fits the counter, and O36 gives the rules' premise in
the supported range. -/
theorem nominalCalls : Obligations.NominalCalls := by
  intro call hfit
  have nominal (ht0h : 1 ≤ t0hOf call.cfg call.mode) (hlt : t1hOf call.cfg call.mode < call.period) : call.nominal :=
    ⟨ht0h, t0hOf_le_t1hOf hfit call.mode, hlt⟩
  refine ⟨fun ht0h hlt => ⟨nominal ht0h hlt, (nominal ht0h hlt).fitsCounter hfit⟩, fun hsupported => ?_⟩
  obtain ⟨ht0h, -, hlt⟩ := durationsStrictlyOrdered call.cfg call.mode hsupported
  exact ⟨nominal ht0h hlt, (nominal ht0h hlt).fitsCounter hfit⟩

end Sys2Proof.Machine

/-! PROOFS. The transmit command: which operation a tick takes, the counter, the command ports, the accept step and the
lines the block drives. -/

namespace Sys2Proof.Machine

/-! ## Which operation a tick takes -/

/-- Settles O5: past the stops the tick is `exec` of the decoded operation and the host's writes. -/
theorem stepRunsDecoded : Obligations.StepRunsDecoded := by
  intro s i ⟨hfault, hforeign⟩ hi
  simp [step, runTick, hfault, hforeign, hi]

/-- The command an accepting tick presents; its operands fit their ports, so its encoding decodes to it. -/
theorem step_runs_command {s : State} {i : Instr} (hu : Unhindered s) (ha : Accepts s) (hwf : i.wf s.cfg = true)
    (hi : encode i = .cmd true (modeBit (currentMove s).ports.cmdMode) (currentMove s).ports.cmdPin
      (currentMove s).ports.cmdLen (currentMove s).ports.cmdBase) :
    step s = afterOperation (currentMove s) (exec i s) :=
  stepRunsDecoded s i hu (by rw [selector_accept s ha, ← hi, decode_encode, checkOperands_of_wf hwf])

/-- The micro-operation whose code `ST` holds, in a tick without reset and without an accepted command. -/
theorem step_runs_micro {s : State} {i : Instr} (hu : Unhindered s) (hr : (currentMove s).ports.rst = false)
    (ha : ¬ Accepts s) (hi : decode s.cfg (seqEnc s.st) = .ok i) :
    step s = afterOperation (currentMove s) (exec i s) :=
  stepRunsDecoded s i hu (by rw [selector_micro s hr ha, hi])

theorem not_accepts_of_busy {s : State} (h : s.st ≠ .idle) : ¬ Accepts s := fun ha => h ha.1

theorem not_accepts_of_start {s : State} (h : (currentMove s).ports.start = false) : ¬ Accepts s := by
  simp [Accepts, h]

/-- Settles O6: in each line of R73 the selector is the encoding of the line's operation, which decodes to it. -/
theorem tickSelection : Obligations.TickSelection := by
  intro s hu p runs
  refine ⟨fun hr => ?_, fun hr hst hstart => ?_, fun hr hst hstart hpin hbase hlen => ?_, fun hr hst => ?_,
    fun hr hst => ?_, fun hr hst => ?_⟩
  · exact stepRunsDecoded s .rst hu (by rw [selector_rst s hr]; rfl)
  · exact step_runs_micro hu hr (not_accepts_of_start hstart) (by rw [hst]; rfl)
  · have ha : Accepts s := ⟨hst, hr, hstart⟩
    refine ⟨fun hm => ?_, fun hm => ?_⟩
    · exact step_runs_command hu ha (by simp [Instr.wf, hpin, hbase, hlen]) (by simp [encode, modeBit, p, hm])
    · exact step_runs_command hu ha (by simp [Instr.wf, hpin, hbase, hlen]) (by simp [encode, modeBit, p, hm])
  · exact step_runs_micro hu hr (not_accepts_of_busy (by simp [hst])) (by rw [hst]; rfl)
  · exact step_runs_micro hu hr (not_accepts_of_busy (by simp [hst])) (by rw [hst]; rfl)
  · exact step_runs_micro hu hr (not_accepts_of_busy (by simp [hst])) (by rw [hst]; rfl)

/-- Settles O8: the moves of a state in range exist, so the tick is unhindered, and a reset, an accept of operands that
fit and a micro-operation each answer a next state. -/
theorem stepIsTotal : Obligations.StepIsTotal := by
  intro s hinv hforeign
  obtain ⟨hmem, hpin, hdir, hcmdPin, hcmdBase, hcmdLen⟩ := hinv.range.move
  have hu : Unhindered s := ⟨hostFault_of_exists hmem hpin hdir, hforeign⟩
  cases hr : (currentMove s).ports.rst with
  | true => exact ⟨_, step_rst hu hr⟩
  | false =>
    by_cases ha : Accepts s
    · exact ⟨_, step_accept hu ha hcmdPin hcmdBase hcmdLen⟩
    · exact ⟨_, step_micro hu hr ha⟩

/-! ## The counter -/

/-- Each of the six things a tick can do ends in `countTick`. -/
theorem BlockTick.ccount {s u : State} (hu : BlockTick s u) : u.ccount = addMod s.cfg.ccw s.ccount 1 := by
  cases hu <;> simp

/-- Settles O9: the block counts whatever it does, and the host writes no counter. -/
theorem counterCountsEveryTick : Obligations.CounterCountsEveryTick := by
  intro s t hs
  obtain ⟨-, u, hu, rfl⟩ := step_blockTick hs
  exact hu.ccount

/-- Over a run the counter goes on by one a tick; modulo its width, because in `s` it may stand out of range. -/
theorem ccount_stateAfter {n : Nat} {s t : State} (h : stateAfter n s = some t) :
    t.ccount % 2 ^ s.cfg.ccw = (s.ccount + n) % 2 ^ s.cfg.ccw := by
  induction n generalizing s with
  | zero => cases h; rfl
  | succ n ih =>
    obtain ⟨u, hu, hn⟩ := stateAfter_succ_inv h
    have hcount := ih hn
    rw [stepKeepsConfig s u hu, counterCountsEveryTick s u hu, Nat.mod_add_mod] at hcount
    rw [hcount, Nat.add_assoc, Nat.add_comm 1 n]

/-- Settles O10: a read is the counter itself, and the difference of two reads sees it modulo its width only. -/
theorem counterRead : Obligations.CounterRead := by
  refine fun s => ⟨rfl, rfl, fun n t h => ?_⟩
  calc modSub s.cfg.ccw t.ccount s.ccount
    _ = modSub s.cfg.ccw (t.ccount % 2 ^ s.cfg.ccw) s.ccount := (modSub_mod_left _ _ _).symm
    _ = modSub s.cfg.ccw (s.ccount + n) s.ccount := by rw [ccount_stateAfter h, modSub_mod_left]
    _ = n % 2 ^ s.cfg.ccw := modSub_add _ _ _

/-! ## The command ports -/

/-- The move of a tick leaves the queue with the tick. -/
theorem hostEffects_withMove (m n : HostMove) (s : State) : hostEffects m (withMove n s) = hostEffects m s := rfl

theorem lowerCell_withMove (m : HostMove) (s : State) : lowerCell (withMove m s) = withMove m (lowerCell s) := by
  obtain ⟨h0, e⟩ | ⟨h0, h1, e⟩ | ⟨h0, h1, e⟩ := advanceCursor_cases (pinWrite s.pin false s)
  · rw [lowerCell, lowerCell, e]
    exact if_pos h0
  · rw [lowerCell, lowerCell, e]
    exact (if_neg (not_not_intro h0)).trans (if_pos h1)
  · rw [lowerCell, lowerCell, e]
    exact (if_neg (not_not_intro h0)).trans (if_neg (not_not_intro h1))

/-- A raising step looks at no other part of the move than the byte writes, which may race its read (U3). -/
theorem raiseCell_withMove {m : HostMove} {s : State} (hm : m.memWrites = (currentMove s).memWrites) :
    raiseCell (withMove m s) = withMove m (raiseCell s) := by
  have hread (a : Nat) : memRead (withMove m s) a = memRead s a := by
    rw [memRead, memRead, ← hm]
    rfl
  have hbyte : currentByte (withMove m s) = currentByte s := by
    rw [currentByte, currentByte, hread]
    rfl
  rw [raiseCell, raiseCell, hbyte]
  rfl

/-- So a micro-operation reads no port. -/
theorem microTick_withMove {m : HostMove} {s : State} (hm : m.memWrites = (currentMove s).memWrites) :
    microTick (withMove m s) = withMove m (microTick s) := by
  have hperiod : periodOver (withMove m s) = periodOver s := rfl
  have hhigh : highOver (withMove m s) = highOver s := rfl
  cases hst : s.st with
  | idle =>
    rw [microTick_idle s hst, microTick_idle (withMove m s) hst]
    rfl
  | waitCell =>
    rw [microTick_waitCell s hst, microTick_waitCell (withMove m s) hst, cellTick, cellTick, hperiod,
      raiseCell_withMove hm]
    split <;> rfl
  | waitHigh =>
    rw [microTick_waitHigh s hst, microTick_waitHigh (withMove m s) hst, highTick, highTick, hhigh, lowerCell_withMove]
    split <;> rfl
  | latch =>
    rw [microTick_latch s hst, microTick_latch (withMove m s) hst, latchTick, latchTick, hperiod]
    split <;> rfl

/-- A tick that is stopped ends alike in every state with the same stops. -/
theorem step_eq_of_hindered {s u : State} (hfault : hostFault s = hostFault u)
    (hforeign : foreignWrite s = foreignWrite u) (h : ¬ Unhindered u) : step s = step u := by
  unfold step runTick
  rw [hfault, hforeign]
  cases hf : hostFault u with
  | some f => rfl
  | none =>
    cases hw : foreignWrite u with
    | true => rfl
    | false => exact absurd ⟨hf, hw⟩ h

/-- Other ports with the same reset input, in a tick that accepts no command with either. The same things stop the
two ticks, and otherwise both reset or both take the micro-operation of `ST`. -/
theorem step_withPorts {s : State} {p : Ports} (hrst : p.rst = (currentMove s).ports.rst)
    (h : p.rst = true ∨ s.st ≠ .idle ∨ (p.start = false ∧ (currentMove s).ports.start = false)) :
    step (withMove { currentMove s with ports := p } s) = step s := by
  by_cases hu : Unhindered s
  swap
  · exact step_eq_of_hindered rfl rfl hu
  have hup : Unhindered (withMove { currentMove s with ports := p } s) := hu
  have heffects (u : State) : hostEffects { currentMove s with ports := p } u = hostEffects (currentMove s) u := by
    rw [hostEffects, hostEffects, hrst]
  cases hr : p.rst with
  | true =>
    rw [step_rst hup hr, step_rst hu (hrst ▸ hr)]
    exact congrArg _ (heffects (resetStep s))
  | false =>
    obtain ⟨hp, hs⟩ : ¬ Accepts (withMove { currentMove s with ports := p } s) ∧ ¬ Accepts s := by
      obtain hrt | hst | ⟨hps, hss⟩ := h
      · exact absurd (hr.symm.trans hrt) Bool.false_ne_true
      · exact ⟨not_accepts_of_busy hst, not_accepts_of_busy hst⟩
      · exact ⟨not_accepts_of_start hps, not_accepts_of_start hss⟩
    rw [step_micro hup hr hp, step_micro hu (hrst ▸ hr) hs, microTick_withMove (by rfl), hostEffects_withMove]
    exact congrArg _ (heffects (microTick s))

/-- Settles O14: the two states differ in the ports of the current move, which leaves the queue with the tick. -/
theorem portsReadOnlyAtAccept : Obligations.PortsReadOnlyAtAccept := fun s m rest _ q hrst h =>
  step_withPorts (s := { s with host := { m with ports := q } :: rest }) hrst h

/-! ## The commands and `IDLE` -/

/-- Settles O15: `IDLE` is the count of the tick and nothing else. -/
theorem idleOnlyCounts : Obligations.IdleOnlyCounts := fun _ => rfl

/-- The accept step with the durations and the reference as R62, R76 and R77 write them. -/
theorem presentCommand_accepted {s : State} {m m' : Mode} (pin base len : Nat) (hst : s.st = .idle)
    (hfit : s.cfg.fTick < 2 ^ s.cfg.ccw) (hm : effectiveMode s.cfg m = m') :
    presentCommand m pin base len s =
      { s with
        pin := pin, base := base, len := len, mode := m',
        t0h := s.cfg.fTick / t0hDivisor m', t1h := s.cfg.fTick / t1hDivisor m',
        period := s.cfg.fTick / periodDivisor m',
        ref := modSub s.cfg.ccw s.ccount (s.cfg.fTick / periodDivisor m'),
        byteIdx := 0, bitIdx := 7, busy := true,
        st := if len = 0 then .latch else .waitCell,
        ccount := (s.ccount + 1) % 2 ^ s.cfg.ccw } := by
  have quotient (d : Nat) := zextCcw_div s.cfg.ccw s.cfg.fTick d hfit
  rw [presentCommand_idle _ _ _ _ s hst, hm, accept, subMod_eq_modSub, t0hOf, t1hOf, periodOf, quotient,
    quotient, quotient]
  rfl

theorem effectiveMode_fast (c : Config) : effectiveMode c .fast = .fast := ite_self _

theorem effectiveMode_of_dualRate {c : Config} (h : c.dualRate = true) (m : Mode) : effectiveMode c m = m := if_pos h

/-- Settles O16: the effective profile is the fast one, by the command or by the build. -/
theorem fastCommandAccepted : Obligations.FastCommandAccepted := by
  intro s i pin base len hi hst hfit
  obtain rfl | ⟨rfl, hsingle⟩ := hi
  · exact congrArg _ (presentCommand_accepted pin base len hst hfit (effectiveMode_fast _))
  · exact congrArg _ (presentCommand_accepted pin base len hst hfit (effectiveMode_of_singleRate hsingle .slow))

/-- Settles O17: with both profiles in the build the effective profile is the slow one of the command. -/
theorem slowCommandAccepted : Obligations.SlowCommandAccepted := fun _ pin base len hst hfit hdual =>
  congrArg _ (presentCommand_accepted pin base len hst hfit (effectiveMode_of_dualRate hdual .slow))

/-- During a call either command is the micro-operation of `ST`. -/
theorem exec_command_of_busy {s t : State} (pin base len : Nat) (hst : s.st ≠ .idle) (ht : microTick s = t) :
    exec (.txFast pin base len) s = .next t ∧ exec (.txSlow pin base len) s = .next t := by
  have ignored (m : Mode) : presentCommand m pin base len s = t := (presentCommand_busy m pin base len s hst).trans ht
  exact ⟨congrArg _ (ignored .fast), congrArg _ (ignored .slow)⟩

/-- Settles O19: outside `IDLE` the command's ports are not looked at. -/
theorem commandIgnoredWhileBusy : Obligations.CommandIgnoredWhileBusy := fun s pin base len =>
  ⟨fun hst => exec_command_of_busy pin base len (by simp [hst]) (microTick_waitCell s hst),
    fun hst => exec_command_of_busy pin base len (by simp [hst]) (microTick_waitHigh s hst),
    fun hst => exec_command_of_busy pin base len (by simp [hst]) (microTick_latch s hst)⟩

/-! ## The lines -/

theorem BlockTick.gpioOut_eq {s u : State} (hu : BlockTick s u) (hr : (currentMove s).ports.rst = false)
    (hra : ¬ Raises s) (hlo : ¬ Lowers s) : u.gpioOut = s.gpioOut :=
  Nat.eq_of_testBit_eq fun _ => hu.lineLevel_eq hr (.inr ⟨hra, hlo⟩)

/-- Settles O24: the primitives are `setLine`, the raising and the lowering step write `GPIO_OUT` by it at `PIN`, and no
other tick of the block without reset writes a line. -/
theorem pinWritesOneLine : Obligations.PinWritesOneLine := by
  intro s p
  refine ⟨⟨_, rfl, setLine_true _ _, fun q => lineLevel_setLine _ _ q true⟩,
    ⟨_, rfl, setLine_false _ _, fun q => lineLevel_setLine _ _ q false⟩,
    fun hd => ⟨_, _, rfl, rfl, ?_⟩, fun hd => ⟨_, _, rfl, rfl, ?_⟩, fun t hs hr hw hra hlo => ?_⟩
  · rw [cellTick_of_due s hd, countTick_gpioOut, raiseCell_gpioOut, pinWrite_gpioOut]
  · rw [highTick_of_due s hd, countTick_gpioOut, lowerCell_gpioOut, pinWrite_gpioOut]
  · obtain ⟨-, u, hu, rfl⟩ := step_blockTick hs
    simp only [hostEffects_gpioOut, hr, hw, setLines]
    exact hu.gpioOut_eq hr hra hlo

end Sys2Proof.Machine

/-! PROOFS. The micro-operations of a call, the counter's place (R100), and the schedule of a call on its line and on the
wire. -/

namespace Sys2Proof.Machine

/-! ## Two states that differ in where the counter stands (R100) -/

/-- The state with its counter and its reference at other values. -/
def withClock (c r : Nat) (s : State) : State := { s with ccount := c, ref := r }

theorem advanceCursor_withClock (c r : Nat) (s : State) :
    advanceCursor (withClock c r s) = withClock c r (advanceCursor s) := by
  unfold advanceCursor
  simp only [apply_ite (withClock c r)]
  rfl

/-- The reference captured by a raising step is the counter itself, so no tick has passed since. -/
theorem sinceRef_raiseCell (s : State) : sinceRef (raiseCell s) = 0 :=
  (modSub_add s.cfg.ccw s.ccount 0).trans (Nat.zero_mod _)

/-- One tick after the accept step the wait for the period is over by one tick, modulo the width. -/
theorem sinceRef_accept (m : Mode) (p b n : Nat) (s : State) :
    sinceRef (accept m p b n s) = (periodOf s.cfg m + 1) % 2 ^ s.cfg.ccw := by
  rw [sinceRef, accept_cfg, accept_ccount, accept_ref, addMod_eq, subMod_eq_modSub, modSub_mod_left, modSub_past]

namespace AgreeUpToClock

variable {s u : State} (h : AgreeUpToClock s u)
include h

theorem eq_withClock : s = withClock s.ccount s.ref u := h.1.symm

theorem cfg_eq : s.cfg = u.cfg := by rw [h.eq_withClock]; rfl

theorem st_eq : s.st = u.st := by rw [h.eq_withClock]; rfl

theorem currentMove_eq : currentMove s = currentMove u := by rw [h.eq_withClock]; rfl

theorem foreignWrite_eq : foreignWrite s = foreignWrite u := by rw [h.eq_withClock]; rfl

theorem sinceRef_eq (hst : s.st ≠ .idle) : sinceRef s = sinceRef u := h.2 hst

/-- Both waits look at the counter through the elapsed time only, so they end in the same tick. -/
theorem periodOver_eq (hst : s.st ≠ .idle) : periodOver s = periodOver u := by
  rw [periodOver, periodOver, elapsed_eq_sinceRef, elapsed_eq_sinceRef, h.sinceRef_eq hst, h.eq_withClock]
  rfl

theorem highOver_eq (hst : s.st ≠ .idle) : highOver s = highOver u := by
  rw [highOver, highOver, elapsed_eq_sinceRef, elapsed_eq_sinceRef, h.sinceRef_eq hst, h.eq_withClock]
  rfl

theorem countTick : AgreeUpToClock (countTick s) (countTick u) := by
  refine ⟨by rw [h.eq_withClock]; rfl, fun hst => ?_⟩
  show sinceRef (Machine.countTick s) = sinceRef (Machine.countTick u)
  rw [sinceRef_countTick, sinceRef_countTick, h.sinceRef_eq hst, h.cfg_eq]

/-- The raising step puts both references at their own counters. -/
theorem raiseCell : AgreeUpToClock (raiseCell s) (raiseCell u) := by
  refine ⟨by rw [h.eq_withClock]; rfl, fun _ => ?_⟩
  exact (sinceRef_raiseCell s).trans (sinceRef_raiseCell u).symm

theorem pinWrite (p : Nat) (b : Bool) : AgreeUpToClock (pinWrite p b s) (pinWrite p b u) :=
  ⟨by rw [h.eq_withClock]; rfl, h.2⟩

theorem advanceCursor (hst : s.st ≠ .idle) : AgreeUpToClock (advanceCursor s) (advanceCursor u) := by
  refine ⟨by rw [h.eq_withClock, advanceCursor_withClock]; rfl, fun _ => ?_⟩
  simpa using h.2 hst

theorem lowerCell (hst : s.st ≠ .idle) : AgreeUpToClock (lowerCell s) (lowerCell u) := by
  have hpin : s.pin = u.pin := by rw [h.eq_withClock]; rfl
  rw [Machine.lowerCell, Machine.lowerCell, hpin]
  exact (h.pinWrite u.pin false).advanceCursor hst

theorem finishCall : AgreeUpToClock (finishCall s) (finishCall u) :=
  ⟨by rw [h.eq_withClock]; rfl, by simp⟩

/-- The accept step puts both references one period before their counters. -/
theorem accept (m : Mode) (p b n : Nat) : AgreeUpToClock (accept m p b n s) (accept m p b n u) := by
  refine ⟨by rw [h.eq_withClock]; rfl, fun _ => ?_⟩
  show sinceRef (Machine.accept m p b n s) = sinceRef (Machine.accept m p b n u)
  rw [sinceRef_accept, sinceRef_accept, h.cfg_eq]

theorem resetStep : AgreeUpToClock (resetStep s) (resetStep u) :=
  ⟨by rw [h.eq_withClock]; rfl, by simp⟩

theorem microTick : AgreeUpToClock (microTick s) (microTick u) := by
  cases hst : s.st with
  | idle =>
    rw [microTick_idle s hst, microTick_idle u (h.st_eq ▸ hst)]
    exact h.countTick
  | waitCell =>
    have hover := h.periodOver_eq (by simp [hst])
    rw [microTick_waitCell s hst, microTick_waitCell u (h.st_eq ▸ hst), cellTick, cellTick, hover]
    split
    · exact h.raiseCell.countTick
    · exact h.countTick
  | waitHigh =>
    have hover := h.highOver_eq (by simp [hst])
    rw [microTick_waitHigh s hst, microTick_waitHigh u (h.st_eq ▸ hst), highTick, highTick, hover]
    split
    · exact (h.lowerCell (by simp [hst])).countTick
    · exact h.countTick
  | latch =>
    have hover := h.periodOver_eq (by simp [hst])
    rw [microTick_latch s hst, microTick_latch u (h.st_eq ▸ hst), latchTick, latchTick, hover]
    split
    · exact h.finishCall.countTick
    · exact h.countTick

theorem blockNext : AgreeUpToClock (blockNext s) (blockNext u) := by
  rw [Machine.blockNext, Machine.blockNext, h.currentMove_eq, h.st_eq, h.cfg_eq]
  split
  · exact h.resetStep
  · split
    · exact h.accept _ _ _ _
    · exact h.microTick

theorem hostEffects (m : HostMove) : AgreeUpToClock (hostEffects m s) (hostEffects m u) :=
  ⟨by rw [h.eq_withClock]; rfl, h.2⟩

/-- The two look alike: the read address is shown in `WAIT_CELL` only, at the end of the wait. -/
theorem observe_eq : observe s = observe u := by
  have hread : readAddress s = readAddress u := by
    by_cases hst : s.st = .waitCell
    · have hover := h.periodOver_eq (by simp [hst])
      rw [readAddress, readAddress, hover, h.eq_withClock]
      rfl
    · have hst' : u.st ≠ .waitCell := h.st_eq ▸ hst
      simp [readAddress, hst, hst']
  rw [observe, observe, hread, h.eq_withClock]
  rfl

end AgreeUpToClock

/-- Settles O49: each operation a tick can select keeps the distance of the counter from the reference or sets it anew, to
the same value in both states, and nothing else looks at the counter. -/
theorem counterValueImmaterial : Obligations.CounterValueImmaterial := by
  intro s u h
  refine ⟨outcomesAgree_step h.cfg_eq h.st_eq h.currentMove_eq h.foreignWrite_eq ?_, h.observe_eq⟩
  rw [h.currentMove_eq]
  exact h.blockNext.hostEffects _

/-! ## The micro-operations of a call -/

/-- The byte of a cell: below bit 7 the latched one, and at bit 7 the one in memory, if the host leaves it in this tick. -/
theorem currentByte_eq_of_quiet {s : State} {b : Byte}
    (h7 : s.bitIdx = 7 → b = s.mem.read ((s.base + s.byteIdx) % 2 ^ s.cfg.aw) ∧
      ∀ w ∈ (currentMove s).memWrites, w.1 ≠ (s.base + s.byteIdx) % 2 ^ s.cfg.aw)
    (hlow : s.bitIdx ≠ 7 → b = s.pix) : currentByte s = b := by
  by_cases h : s.bitIdx = 7
  · obtain ⟨rfl, hquiet⟩ := h7 h
    exact (currentByte_of_eq s h).trans (memRead_of_not_written s _ hquiet)
  · exact (currentByte_of_ne s h).trans (hlow h).symm

/-- Settles O20: the two branches of `CELLWAIT`, the second with the byte that it obtains. -/
theorem cellwaitSpinsThenRaises : Obligations.CellwaitSpinsThenRaises := by
  refine fun s => ⟨fun h => congrArg _ (cellTick_of_early s h), fun h b h7 hlow => ?_⟩
  show Host.Outcome.next (cellTick s) = _
  rw [cellTick_of_due s h, raiseCell, currentByte_eq_of_quiet h7 hlow]
  rfl

/-- Settles O21: the two branches of `HIGHWAIT`, the second in the three cases of the cursor. -/
theorem highwaitSpinsThenLowers : Obligations.HighwaitSpinsThenLowers := by
  refine fun s => ⟨fun h => congrArg _ (highTick_of_early s h), fun h => ?_⟩
  have hexec : exec .highwait s = .next (countTick (advanceCursor (pinWrite s.pin false s))) :=
    congrArg _ (highTick_of_due s h)
  rw [hexec, ← setLine_false]
  obtain ⟨h0, e⟩ | ⟨h0, h1, e⟩ | ⟨h0, h1, e⟩ := advanceCursor_cases (pinWrite s.pin false s)
  · exact ⟨fun _ => congrArg _ (congrArg countTick e), fun hz => absurd hz h0, fun hz => absurd hz h0⟩
  · exact ⟨fun hne => absurd h0 hne, fun _ _ => congrArg _ (congrArg countTick e), fun _ he => absurd he h1⟩
  · exact ⟨fun hne => absurd h0 hne, fun _ hne => absurd h1 hne, fun _ _ => congrArg _ (congrArg countTick e)⟩

/-- Settles O22: the two branches of `LATCHWAIT`. -/
theorem latchwaitSpinsThenReturns : Obligations.LatchwaitSpinsThenReturns := fun s =>
  ⟨fun h => congrArg _ (latchTick_of_early s h), fun h => congrArg _ (latchTick_of_due s h)⟩

theorem exec_symbol (s : State) (bit : Bool) : exec (if bit then .sym1 else .sym0) s = .next (selectTarget bit s) := by
  cases bit <;> rfl

/-- Settles O23: a symbol is the load of `TSEL` that the raising step makes for the bit of the byte it latches. -/
theorem symbolsSelectTarget : Obligations.SymbolsSelectTarget := by
  refine fun s => ⟨rfl, rfl, fun h => ?_⟩
  refine ⟨_, congrArg Host.Outcome.next (cellTick_of_due s h), _, exec_symbol s _, ?_⟩
  rw [countTick_tsel, raiseCell_tsel, selectTarget_tsel]
  rfl

/-- Settles O28: a micro-operation spins, or it raises, lowers or returns. -/
theorem microOperationFrames : Obligations.MicroOperationFrames := by
  refine fun s t => ⟨fun h => ?_, fun h => ?_, fun h => ?_⟩ <;> cases h
  · obtain e | e := cellTick_cases s <;> simp [e]
  · obtain e | e := highTick_cases s <;> simp [e]
  · obtain e | e := latchTick_cases s <;> simp [e]

/-! ## Quantisation -/

/-- A floor quotient times its divisor is short by less than one divisor. -/
theorem div_quantised (f : Nat) {d : Nat} (hd : 0 < d) : f / d * d ≤ f ∧ f < (f / d + 1) * d :=
  ⟨Nat.div_mul_le_self f d, Nat.lt_mul_of_div_lt (Nat.lt_succ_self _) hd⟩

/-- A duration that is short by less than one tick is within the tolerance, where one tick is no longer than that. -/
theorem withinTolerance_of_quantised {c : Config} {d n : Nat} (h : n * d ≤ c.fTick ∧ c.fTick < (n + 1) * d)
    (htick : 1000000000 ≤ c.tolFast * c.fTick) : c.withinTolerance d n := by
  obtain ⟨hle, hlt⟩ := h
  have hshort : ((n * d : Nat) - (c.fTick : Int)).natAbs ≤ d := by
    rw [Nat.add_mul] at hlt
    omega
  calc ((n * d : Nat) - (c.fTick : Int)).natAbs * 1000000000
    _ ≤ d * (c.tolFast * c.fTick) := Nat.mul_le_mul hshort htick
    _ = c.tolFast * (c.fTick * d) := by ring

theorem t0hDivisor_pos (m : Mode) : 0 < t0hDivisor m := by cases m <;> decide

theorem t1hDivisor_pos (m : Mode) : 0 < t1hDivisor m := by cases m <;> decide

theorem periodDivisor_pos (m : Mode) : 0 < periodDivisor m := by cases m <;> decide

/-- Settles O37: each duration is a floor quotient, since `F_TICK` fits the counter. -/
theorem quantisationBelowOneTick : Obligations.QuantisationBelowOneTick := by
  rintro c m ⟨-, hfit⟩
  have quantised {d : Nat} (hd : 0 < d) :
      zextCcw c.ccw (c.fTick / d) * d ≤ c.fTick ∧ c.fTick < (zextCcw c.ccw (c.fTick / d) + 1) * d := by
    rw [zextCcw_div c.ccw c.fTick d hfit]
    exact div_quantised c.fTick hd
  have ht0h := quantised (t0hDivisor_pos m)
  have ht1h := quantised (t1hDivisor_pos m)
  exact ⟨ht0h, ht1h, quantised (periodDivisor_pos m), fun htick =>
    ⟨withinTolerance_of_quantised ht0h htick, withinTolerance_of_quantised ht1h htick⟩⟩

/-! ## The cells of a call

Every tick from the first rise to the return is one of a cell. What it shows is said once here, of both phases. -/

/-- The tick `j` ticks after the rise of cell `k`: the level of the line, the time since the rise, and the cursor while the
line is high. -/
structure Call.InCell (call : Call) (k j r : Nat) (u : State) : Prop extends call.Runs r u where
  level : lineLevel u.gpioOut call.pin = decide (j < call.highTicks k)
  since : sinceRef u = (j + 1) % 2 ^ call.cfg.ccw
  cursor : j < call.highTicks k → u.st = .waitHigh ∧ u.byteIdx = k / 8 ∧ u.bitIdx.val = 7 - k % 8

/-- The tick before the return: `LATCH` with its wait over. -/
structure Call.Resting (call : Call) (lvl : Bool) (r : Nat) (u : State) : Prop extends call.Runs r u where
  st : u.st = .latch
  due : u.period ≤ sinceRef u
  level : lineLevel u.gpioOut call.pin = lvl

section
variable {call : Call} {s : State} {k j r : Nat} {u : State}

theorem Call.High.inCell (h : call.High k j r u) (hj : j < call.highTicks k) : call.InCell k j r u :=
  { h.toRuns with
    level := by simp [h.level, hj]
    since := h.since
    cursor := fun _ => ⟨h.st, h.byteIdx, h.bitIdx⟩ }

theorem Call.Low.inCell (h : call.Low k j r u) (hlo : call.highTicks k ≤ j) : call.InCell k j r u :=
  { h.toRuns with
    level := by simp [h.level, hlo]
    since := h.since
    cursor := fun hj => absurd hj (Nat.not_lt.2 hlo) }

/-- The last cell has fallen and its time is over: the call is about to return. -/
theorem Call.Low.resting (h : call.Low k j r u) (hf : call.fitsCounter) (hk : ¬ k + 1 < 8 * call.len)
    (hj : j + 1 = call.cellTicks k) : call.Resting false r u :=
  { h.toRuns with
    st := h.st.trans (if_neg hk)
    due := by
      rw [h.period, h.since, hj]
      exact Call.period_le_cellTicks_mod hf k
    level := h.level }

theorem Call.highTicks_pos (call : Call) (k : Nat) : 0 < call.highTicks k := Nat.le_max_right _ _

variable (hs : call.Starts s) (hf : call.fitsCounter)
include hs hf

theorem Call.Starts.inCell (hk : k < 8 * call.len) (hj : j < call.cellTicks k) :
    call.At (call.InCell k j) (call.rise k + j) s := by
  by_cases hhigh : j < call.highTicks k
  · exact (hs.high hf hk hhigh).imp fun r u hu => hu.inCell hhigh
  · have hlo : call.highTicks k ≤ j := Nat.le_of_not_lt hhigh
    exact (hs.low hf hk hlo hj).imp fun r u hu => hu.inCell hlo

/-- The call is in progress from the tick after accept to the one before the return. -/
theorem Call.Starts.runs {n : Nat} (h1 : 1 ≤ n) (hn : n < call.rise (8 * call.len)) : call.At call.Runs n s := by
  obtain rfl | h2 : n = 1 ∨ 2 ≤ n := by omega
  · obtain ⟨t, ht, hruns, -⟩ := hs.accepted hf
    exact ⟨t, stateAfter_one ht, hruns⟩
  · obtain ⟨k, hk, j, hj, rfl⟩ := call.exists_cell h2 hn
    exact (hs.inCell hf hk hj).imp fun r u hu => hu.toRuns

/-- In the tick before the return the line is low, or, in an empty call, as it was. -/
theorem Call.Starts.resting :
    call.At (call.Resting (decide (call.len = 0) && lineLevel s.gpioOut call.pin)) (call.rise (8 * call.len) - 1) s := by
  by_cases hlen : call.len = 0
  · obtain ⟨t, ht, hruns, hst, -, -, hdue, hlevel⟩ := hs.accepted hf
    have h1 : call.rise (8 * call.len) - 1 = 1 := by simp [hlen, Call.rise]
    rw [h1]
    exact ⟨t, stateAfter_one ht,
      { hruns with st := hst.trans (if_pos hlen), due := hdue, level := by simp [hlevel, hlen] }⟩
  · obtain ⟨k, hk⟩ : ∃ k, 8 * call.len = k + 1 := ⟨8 * call.len - 1, by omega⟩
    have hpos := call.two_le_cellTicks k
    have hend : call.rise (8 * call.len) - 1 = call.rise k + (call.cellTicks k - 1) := by
      rw [hk, call.rise_succ]
      omega
    have hlow := hs.low hf (k := k) (by omega) (Nat.le_sub_one_of_lt (call.highTicks_lt_cellTicks k)) (by omega)
    rw [hend]
    refine hlow.imp fun r u hu => ?_
    simpa [hlen] using hu.resting hf (by omega) (by omega)

/-- The return tick. -/
theorem Call.Starts.returned :
    ∃ t, stateAfter (call.rise (8 * call.len)) s = some t ∧ t.st = .idle ∧ t.busy = false ∧
      lineLevel t.gpioOut call.pin = (decide (call.len = 0) && lineLevel s.gpioOut call.pin) := by
  have h2 := call.two_le_rise (8 * call.len)
  have hend : call.rise (8 * call.len) = call.rise (8 * call.len) - 1 + 1 := by omega
  obtain ⟨u, hu, hrest⟩ := hs.resting hf
  have hleft : call.rise (8 * call.len) - (call.rise (8 * call.len) - 1) = 0 + 1 := by omega
  rw [hleft] at hrest
  obtain ⟨t, ht, hst, hbusy, hlevel⟩ := hrest.toRuns.returns hrest.st hrest.due
  exact ⟨t, hend ▸ stateAfter_succ_of_step hu ht, hst, hbusy, hlevel.trans hrest.level⟩

end

/-- Settles O41: the ticks of a cell are those of `Call.InCell`; after them the next cell is in its first tick, or the call
has returned. -/
theorem cellShape : Obligations.CellShape := by
  refine fun call s hs hf k hk => ⟨fun j hj => ?_, ?_⟩
  · obtain ⟨t, ht, hcell⟩ := hs.inCell hf hk hj
    exact ⟨t, ht, hcell.busy, hcell.level, hcell.cursor⟩
  · rw [← call.rise_succ]
    split
    · next hnext =>
      obtain ⟨t, ht, hhigh⟩ := hs.high hf hnext (call.highTicks_pos (k + 1))
      exact ⟨t, ht, hhigh.st, hhigh.level⟩
    · next hlast =>
      obtain ⟨t, ht, hst, hbusy, -⟩ := hs.returned hf
      have hk : k + 1 = 8 * call.len := by omega
      exact ⟨t, hk ▸ ht, hst, hbusy⟩

/-! ## The nominal schedule -/

section
variable {call : Call} (h : call.nominal)
include h

theorem Call.nominal.target_bounds (k : Nat) : 1 ≤ call.target k ∧ call.target k < call.period := by
  obtain ⟨h0, hle, hlt⟩ := h
  unfold Call.target
  split <;> omega

theorem Call.nominal.highTicks_eq (k : Nat) : call.highTicks k = call.target k := Nat.max_eq_left (h.target_bounds k).1

theorem Call.nominal.cellTicks_eq (k : Nat) : call.cellTicks k = call.period := by
  rw [Call.cellTicks, h.highTicks_eq]
  exact Nat.max_eq_left (h.target_bounds k).2

theorem Call.nominal.rise_eq (k : Nat) : call.rise k = 2 + k * call.period := by
  induction k with
  | zero => rw [Nat.zero_mul]; rfl
  | succ k ih => rw [call.rise_succ, ih, h.cellTicks_eq, Nat.succ_mul, Nat.add_assoc]

/-- The ticks of a cell, counted from the accept tick. -/
theorem Call.Starts.inCell_of_nominal {s : State} (hs : call.Starts s) (hf : call.fitsCounter) {k j : Nat}
    (hk : k < 8 * call.len) (hj : j < call.period) : call.At (call.InCell k j) (2 + k * call.period + j) s := by
  rw [← h.rise_eq]
  exact hs.inCell hf hk (h.cellTicks_eq k ▸ hj)

end

/-- Settles O43: the call runs until the return tick, and a nominal cell lasts `PERIOD` ticks. -/
theorem callReturns : Obligations.CallReturns := by
  refine fun call s hs hf => ⟨fun n h1 hn => ?_, ?_, fun h => h.rise_eq _⟩
  · obtain ⟨t, ht, hruns⟩ := hs.runs hf h1 hn
    exact ⟨t, ht, hruns.busy⟩
  · obtain ⟨t, ht, hst, hbusy, -⟩ := hs.returned hf
    exact ⟨t, ht, hst, hbusy⟩

/-- A machine that is still running took its last step. -/
theorem stateAfter_succ_last {s u : State} {n : Nat} (h : stateAfter (n + 1) s = some u) :
    ∃ t, stateAfter n s = some t ∧ step t = .next u := by
  induction n generalizing s with
  | zero =>
    obtain ⟨t, ht, h0⟩ := stateAfter_succ_inv h
    cases h0
    exact ⟨s, rfl, ht⟩
  | succ n ih =>
    obtain ⟨v, hv, hn⟩ := stateAfter_succ_inv h
    obtain ⟨t, ht, hu⟩ := ih hn
    exact ⟨t, (stateAfter_succ n hv).trans ht, hu⟩

/-- A tick leaves in `REF` what was there, the counter, or a value of its width. -/
theorem BlockTick.ref_cases {s u : State} (hu : BlockTick s u) :
    u.ref < 2 ^ s.cfg.ccw ∨ (¬ Accepts s ∧ (u.ref = s.ccount ∨ u.ref = s.ref)) := by
  cases hu with
  | reset => exact .inl (unspecified_lt _ _ _)
  | accept => exact .inl (subMod_lt _ _ _)
  | raise h => exact .inr ⟨h.not_accepts, .inl rfl⟩
  | lower h => exact .inr ⟨h.not_accepts, .inr (by simp)⟩
  | finish h => exact .inr ⟨h.not_accepts, .inr rfl⟩
  | spin _ ha => exact .inr ⟨ha, .inr rfl⟩

/-- From the tick after an accept tick on, the counter and the reference are values of their width, whatever they were. -/
theorem clock_lt_of_accepts {s t : State} (ha : Accepts s) {n : Nat} (h : stateAfter (n + 1) s = some t) :
    t.ccount < 2 ^ t.cfg.ccw ∧ t.ref < 2 ^ t.cfg.ccw := by
  induction n generalizing t with
  | zero =>
    obtain ⟨_, h0, ht⟩ := stateAfter_succ_last h
    cases h0
    obtain ⟨-, u, hu, rfl⟩ := step_blockTick ht
    rw [hostEffects_ccount, hostEffects_ref, hostEffects_cfg, hu.cfg, hu.ccount]
    exact ⟨addMod_lt _ _ _, hu.ref_cases.resolve_right fun hn => hn.1 ha⟩
  | succ n ih =>
    obtain ⟨v, hv, ht⟩ := stateAfter_succ_last h
    obtain ⟨hcount, href⟩ := ih hv
    obtain ⟨-, u, hu, rfl⟩ := step_blockTick ht
    rw [hostEffects_ccount, hostEffects_ref, hostEffects_cfg, hu.cfg, hu.ccount]
    refine ⟨addMod_lt _ _ _, ?_⟩
    obtain hlt | ⟨-, e | e⟩ := hu.ref_cases
    · exact hlt
    · exact e ▸ hcount
    · exact e ▸ href

theorem modSub_add_cancel (n a b : Nat) : (modSub n a b + b) % 2 ^ n = a % 2 ^ n := by
  have hcast : ((2 : Int) ^ n) = ((2 ^ n : Nat) : Int) := by push_cast; rfl
  have hn : (0 : Int) ≤ ((a : Int) - b) % (2 : Int) ^ n := Int.emod_nonneg _ (by positivity)
  apply Int.ofNat_inj.1
  rw [modSub, Int.natCast_mod, Nat.cast_add, Int.toNat_of_nonneg hn, ← hcast, Int.emod_add_emod, sub_add_cancel, hcast,
    Int.natCast_mod]

/-- The reference is the counter as it was when the elapsed time began. -/
theorem ref_eq_of_sinceRef {u : State} {x d : Nat} (hlt : u.ref < 2 ^ u.cfg.ccw)
    (hcount : u.ccount % 2 ^ u.cfg.ccw = (x + d) % 2 ^ u.cfg.ccw) (hsince : sinceRef u = d % 2 ^ u.cfg.ccw) :
    u.ref = x % 2 ^ u.cfg.ccw := by
  have hsum : (d + u.ref) % 2 ^ u.cfg.ccw = (d + x) % 2 ^ u.cfg.ccw := by
    calc (d + u.ref) % 2 ^ u.cfg.ccw
      _ = (sinceRef u + u.ref) % 2 ^ u.cfg.ccw := by rw [hsince, Nat.mod_add_mod]
      _ = u.ccount % 2 ^ u.cfg.ccw := modSub_add_cancel _ _ _
      _ = (d + x) % 2 ^ u.cfg.ccw := by rw [hcount, Nat.add_comm]
  exact (Nat.mod_eq_of_lt hlt).symm.trans (Nat.ModEq.add_left_cancel' d hsum)

section
variable {call : Call} {s : State} (hs : call.Starts s)
include hs

/-- The accept tick leaves the call alone too. -/
theorem Call.Starts.move : call.leaves (currentMove s) := by
  have hpos := call.two_le_rise (8 * call.len)
  refine Call.leaves_currentMove (r := call.rise (8 * call.len) - 1) ?_
  rw [Nat.sub_add_cancel (by omega)]
  exact hs.alone

theorem Call.Starts.accepts : Accepts s := ⟨hs.st, hs.move.1, hs.start⟩

/-- While a cell lasts `REF` is the counter of the tick before its rise (R85, R95). -/
theorem Call.Starts.ref_of_inCell {k j r : Nat} {t : State} (ht : stateAfter (call.rise k + j) s = some t)
    (hcell : call.InCell k j r t) : t.ref = (s.ccount + (call.rise k - 1)) % 2 ^ s.cfg.ccw := by
  have h2 := call.two_le_rise k
  have hcfg : t.cfg = s.cfg := hcell.cfg.trans hs.cfg.symm
  have hn : call.rise k + j = call.rise k - 1 + j + 1 := by omega
  have hlt := (clock_lt_of_accepts hs.accepts (hn ▸ ht)).2
  have hcount : t.ccount % 2 ^ t.cfg.ccw = (s.ccount + (call.rise k - 1) + (j + 1)) % 2 ^ t.cfg.ccw := by
    rw [hcfg, ccount_stateAfter ht, hn]
    simp only [Nat.add_assoc]
  rw [← hcfg]
  exact ref_eq_of_sinceRef hlt hcount (hcell.cfg ▸ hcell.since)

end

/-- Settles O42: the ticks of a nominal cell, `REF` from the elapsed time in them, and the reads of O47. -/
theorem pulseSchedule : Obligations.PulseSchedule := by
  refine fun call s hs hf h => ⟨fun k hk j hj => ?_, fun i hi => ?_⟩
  · obtain ⟨t, ht, hcell⟩ := hs.inCell_of_nominal h hf hk hj
    have hrise : call.rise k - 1 = 1 + k * call.period := by rw [h.rise_eq]; omega
    refine ⟨t, ht, h.highTicks_eq k ▸ hcell.level, ?_⟩
    rw [← hrise]
    exact hs.ref_of_inCell (h.rise_eq k ▸ ht) hcell
  · have hrise : 1 + 8 * i * call.period + 1 = call.rise (8 * i) := by rw [h.rise_eq]; omega
    have hlt : call.rise (8 * i) < call.rise (8 * call.len) := call.rise_strictMono (by omega)
    obtain ⟨t, ht, hread, -⟩ := bytesReadOnce call s hs hf (1 + 8 * i * call.period) (by omega)
    exact ⟨t, ht, hread i hi hrise⟩

/-! ## The levels and the pulses of the line -/

theorem levelAfter_eq {s t : State} {n : Nat} (p : Nat) (h : stateAfter n s = some t) :
    levelAfter p n s = lineLevel t.gpioOut p := by
  simp [levelAfter, h]

section
variable {call : Call} {s : State} {k j : Nat} (hs : call.Starts s) (hf : call.fitsCounter)
include hs hf

theorem Call.Starts.levelAfter_inCell (hk : k < 8 * call.len) (hj : j < call.cellTicks k) :
    levelAfter call.pin (call.rise k + j) s = decide (j < call.highTicks k) := by
  obtain ⟨t, ht, hcell⟩ := hs.inCell hf hk hj
  exact (levelAfter_eq _ ht).trans hcell.level

/-- Every cell ends low. -/
theorem Call.Starts.levelAfter_before_rise (hk : k < 8 * call.len) :
    levelAfter call.pin (call.rise (k + 1) - 1) s = false := by
  have hpos := call.two_le_cellTicks k
  have hlow := call.highTicks_lt_cellTicks k
  have hlast : call.rise (k + 1) - 1 = call.rise k + (call.cellTicks k - 1) := by
    rw [call.rise_succ]
    omega
  rw [hlast, hs.levelAfter_inCell hf hk (by omega)]
  simpa using Nat.le_sub_one_of_lt hlow

theorem Call.Starts.levelAfter_accepted : levelAfter call.pin 1 s = lineLevel s.gpioOut call.pin := by
  obtain ⟨t, ht, -, -, -, -, -, hlevel⟩ := hs.accepted hf
  exact (levelAfter_eq _ (stateAfter_one ht)).trans hlevel

theorem Call.Starts.levelAfter_returned :
    levelAfter call.pin (call.rise (8 * call.len)) s = (decide (call.len = 0) && lineLevel s.gpioOut call.pin) := by
  obtain ⟨t, ht, -, -, hlevel⟩ := hs.returned hf
  exact (levelAfter_eq _ ht).trans hlevel

end

/-- Settles O44: the last cell is nominal, and the one before it ends low. -/
theorem trailingLowTime : Obligations.TrailingLowTime := by
  intro call s hs hf h hlen last rise
  obtain ⟨k, hk⟩ : ∃ k, 8 * call.len = k + 1 + 1 := ⟨8 * call.len - 2, by omega⟩
  have hlast : last = k + 1 := by omega
  have hrise : rise = call.rise (k + 1) := by
    show 2 + 8 * call.len * call.period - call.period = _
    rw [hk, h.rise_eq, Nat.succ_mul, ← Nat.add_assoc, Nat.add_sub_cancel]
  have hend : call.rise (k + 1) + call.period = call.rise (8 * call.len) := by
    rw [hk, call.rise_succ (k + 1), h.cellTicks_eq]
  have hcell {j : Nat} (hj : j < call.period) :
      levelAfter call.pin (call.rise (k + 1) + j) s = decide (j < call.target (k + 1)) := by
    rw [hs.levelAfter_inCell hf (by omega) (h.cellTicks_eq _ ▸ hj), h.highTicks_eq]
  rw [hlast, hrise]
  refine ⟨hs.levelAfter_before_rise hf (by omega), fun j hj => ?_, fun j hlo hj => ?_, ?_⟩
  · rw [hcell (hj.trans (h.target_bounds _).2)]
    exact decide_eq_true hj
  · obtain hlt | rfl := Nat.lt_or_eq_of_le hj
    · rw [hcell hlt]
      exact decide_eq_false (Nat.not_lt.2 hlo)
    · rw [hend, hs.levelAfter_returned hf, decide_eq_false (by omega), Bool.false_and]
  · obtain ⟨t, ht, -, hbusy, -⟩ := hs.returned hf
    exact ⟨t, hend ▸ ht, hbusy⟩

theorem step_of_accepts {s t : State} (h : step s = .next t) (ha : Accepts s) :
    t = hostEffects (currentMove s) (accept (effectiveMode s.cfg (currentMove s).ports.cmdMode)
      (currentMove s).ports.cmdPin (currentMove s).ports.cmdBase (currentMove s).ports.cmdLen s) := by
  obtain ⟨-, ⟨hr, -⟩ | ⟨-, -, -, -, e⟩ | ⟨-, hna, -⟩⟩ := step_next_cases h
  · simp [ha.2.1] at hr
  · exact e
  · exact absurd ha hna

/-- The accept step sets the reference one period into the past (R76), and its tick counts. -/
theorem sinceRef_of_accepts {s t : State} (h : step s = .next t) (ha : Accepts s) :
    sinceRef t = (t.period + 1) % 2 ^ t.cfg.ccw := by
  rw [step_of_accepts h ha]
  exact sinceRef_accept _ _ _ _ _

/-- Settles O45: the accept step leaves the elapsed time one tick past the period, so the next step returns. -/
theorem emptyCall : Obligations.EmptyCall := by
  intro call s hs hf hlen
  obtain ⟨t, ht, hruns, hst, -, -, -, hlevel⟩ := hs.accepted hf
  obtain ⟨u, hu, hidle, hdone, hkept⟩ := hs.returned hf
  have hreturn : call.rise (8 * call.len) = 2 := by simp [hlen, Call.rise]
  have hlatch : t.st = .latch := hst.trans (if_pos hlen)
  have hsince : sinceRef t = t.period + 1 := by
    have hfit : call.period + 1 < 2 ^ call.cfg.ccw := by
      obtain ⟨hfit, -⟩ := hf
      omega
    rw [sinceRef_of_accepts ht hs.accepts, hruns.period, hruns.cfg, Nat.mod_eq_of_lt hfit]
  rw [hlen] at hkept
  exact ⟨t, u, stateAfter_one ht, hreturn ▸ hu, hruns.busy, hlatch, hsince,
    readAddress_eq_none (.inl (by simp [hlatch])), hdone, hidle, hlevel, hkept⟩

theorem risesWithin_succ_of_rise {p n : Nat} {s : State} (h0 : levelAfter p n s = false)
    (h1 : levelAfter p (n + 1) s = true) : risesWithin p (n + 1) s = risesWithin p n s + 1 := by
  simp [risesWithin, List.range_succ, h0, h1]

theorem risesWithin_succ_of_no_rise {p n : Nat} {s : State} (h : levelAfter p n s = true ∨ levelAfter p (n + 1) s = false) :
    risesWithin p (n + 1) s = risesWithin p n s := by
  obtain h | h := h <;> simp [risesWithin, List.range_succ, h]

section
variable {call : Call} {s : State} {k : Nat} (hs : call.Starts s) (hf : call.fitsCounter)
include hs hf

/-- A cell that is low in the tick before it rises once. -/
theorem Call.Starts.risesWithin_inCell (hk : k < 8 * call.len) (hlow : levelAfter call.pin (call.rise k - 1) s = false)
    {j : Nat} (hj : j < call.cellTicks k) :
    risesWithin call.pin (call.rise k + j) s = risesWithin call.pin (call.rise k - 1) s + 1 := by
  induction j with
  | zero =>
    have h2 := call.two_le_rise k
    obtain ⟨n, hn⟩ : ∃ n, call.rise k = n + 1 := ⟨call.rise k - 1, by omega⟩
    have hhigh := hs.levelAfter_inCell hf hk hj
    rw [decide_eq_true (call.highTicks_pos k)] at hhigh
    rw [hn] at hlow hhigh ⊢
    exact risesWithin_succ_of_rise hlow hhigh
  | succ j ih =>
    rw [← ih (by omega)]
    refine risesWithin_succ_of_no_rise ?_
    have hnow := hs.levelAfter_inCell hf hk (j := j) (by omega)
    have hnext := hs.levelAfter_inCell hf hk hj
    by_cases hh : j < call.highTicks k
    · exact .inl (hnow.trans (decide_eq_true hh))
    · exact .inr (hnext.trans (decide_eq_false (by omega)))

/-- Before the rise of cell `k` the line has risen once for each cell before it. -/
theorem Call.Starts.risesWithin_before_rise (hlow : levelAfter call.pin 1 s = false) (hk : k ≤ 8 * call.len) :
    levelAfter call.pin (call.rise k - 1) s = false ∧ risesWithin call.pin (call.rise k - 1) s = k := by
  induction k with
  | zero =>
    have h0 : risesWithin call.pin 1 s = 0 := risesWithin_succ_of_no_rise (n := 0) (.inr hlow)
    exact ⟨hlow, h0⟩
  | succ k ih =>
    obtain ⟨hbefore, hcount⟩ := ih (by omega)
    refine ⟨hs.levelAfter_before_rise hf hk, ?_⟩
    have hpos := call.two_le_cellTicks k
    have hlast : call.rise (k + 1) - 1 = call.rise k + (call.cellTicks k - 1) := by
      rw [call.rise_succ]
      omega
    rw [hlast, hs.risesWithin_inCell hf hk hbefore (by omega), hcount]

end

/-- Settles O46: each cell rises once, and in the return tick the line is low. -/
theorem pulseCount : Obligations.PulseCount := by
  intro call s hs hf hlow
  have h2 := call.two_le_rise (8 * call.len)
  obtain ⟨n, hn⟩ : ∃ n, call.rise (8 * call.len) = n + 1 := ⟨call.rise (8 * call.len) - 1, by omega⟩
  have hcount := (hs.risesWithin_before_rise hf hlow (Nat.le_refl _)).2
  have hreturn := hs.levelAfter_returned hf
  rw [← hs.levelAfter_accepted hf, hlow, Bool.and_false] at hreturn
  rw [hn] at hcount hreturn ⊢
  exact (risesWithin_succ_of_no_rise (.inr hreturn)).trans hcount

/-! ## The wire of a call -/

/-- That the line of a call has been an output and stays one is handed on from tick to tick, the accept tick included. -/
theorem output_next {p : Nat} {s t : State} (hheld : s.outputHeld = true) (hout : OutputUntilReturn p s)
    (hs : step s = .next t) (hb : t.busy = true) (hp : t.pin = p) : t.outputHeld = true ∧ OutputUntilReturn p t := by
  refine ⟨?_, ((outputUntilReturn_iff p s).1 hout).2 t hs hb⟩
  obtain ⟨-, -, hmicro, haccept⟩ := step_next_outside hs
  by_cases ha : Accepts s
  · rw [(haccept hb ha).2, hp, hheld, hout.now]
    rfl
  · obtain ⟨hpin, e⟩ := hmicro hb ha
    rw [e, ← hpin, hp, hheld, hout.now]
    rfl

section
variable {call : Call} {s : State} (hs : call.Starts s) (hf : call.fitsCounter) (hout : OutputUntilReturn call.pin s)
include hs hf hout

/-- In every tick of a call whose line is an output for the whole of it, the line has been one and stays one. -/
theorem Call.Starts.output {n : Nat} {t : State} (hn : n < call.rise (8 * call.len)) (ht : stateAfter n s = some t) :
    t.outputHeld = true ∧ OutputUntilReturn call.pin t := by
  induction n generalizing t with
  | zero =>
    cases ht
    exact ⟨hs.held, hout⟩
  | succ n ih =>
    obtain ⟨v, hv, hstep⟩ := stateAfter_succ_last ht
    obtain ⟨hheld, hahead⟩ := ih (by omega) hv
    obtain ⟨t', ht', hruns⟩ := hs.runs hf (Nat.le_add_left 1 n) hn
    obtain rfl : t = t' := Option.some.inj (ht.symm.trans ht')
    exact output_next hheld hahead hstep hruns.busy hruns.pin

/-- So while the call is in progress the wire of its line is the line's bit. -/
theorem Call.Starts.wire_eq {n r : Nat} {t : State} (hn : n < call.rise (8 * call.len)) (ht : stateAfter n s = some t)
    (hruns : call.Runs r t) : wire t call.pin = lineLevel t.gpioOut call.pin :=
  (wire_of_callLine (hruns.pin ▸ callLine_of_busy hruns.busy)).1 (hs.output hf hout hn ht)

end

/-- Settles O51: the wire of the line is its bit in every tick of a cell. -/
theorem pulsesOnWire : Obligations.PulsesOnWire := by
  intro call s hs hf h hout k hk j hj
  obtain ⟨t, ht, hcell⟩ := hs.inCell_of_nominal h hf hk hj
  have hend : call.rise (k + 1) ≤ call.rise (8 * call.len) := call.rise_strictMono.monotone hk
  have hn : 2 + k * call.period + j < call.rise (8 * call.len) := by
    rw [call.rise_succ, h.cellTicks_eq, h.rise_eq] at hend
    omega
  refine ⟨t, ht, ?_⟩
  rw [hs.wire_eq hf hout hn ht hcell.toRuns, hcell.level, h.highTicks_eq]

end Sys2Proof.Machine

/-! PROOFS. Every operation completes, a foreign write to the driven line is the one refusal of its kind, and the wire of a
call with and without its line an output. -/

namespace Sys2Proof.Machine

/-! ## Completion and refusal -/

/-- Settles O7: each arm of `exec` answers `.next` of its state function, whatever the state and the operands. -/
theorem everyOperationCompletes : Obligations.EveryOperationCompletes := by
  intro i s
  cases i <;> exact ⟨_, rfl⟩

theorem step_of_foreignWrite {s : State} (hf : hostFault s = none) (hw : foreignWrite s = true) :
    step s = .refused .foreignPinWrite := by
  simp [step, runTick, hf, hw]

/-- An unhindered tick is stopped by operands that do not fit or by nothing. -/
theorem step_ne_foreignPinWrite {s : State} (hu : Unhindered s) : step s ≠ .refused .foreignPinWrite := by
  cases hd : decode s.cfg (selector s) with
  | error e => simp [step, runTick, hu.1, hu.2, hd]
  | ok i => simp [step_of_decode hu hd (exec_of_selector hd)]

theorem step_next_of_unhindered {s : State} (hu : Unhindered s)
    (hfit : Accepts s → (currentMove s).ports.cmdPin < 2 ^ s.cfg.pinw ∧ (currentMove s).ports.cmdBase < 2 ^ s.cfg.aw ∧
      (currentMove s).ports.cmdLen < 2 ^ s.cfg.lenw) : ∃ t, step s = .next t := by
  cases hr : (currentMove s).ports.rst with
  | true => exact ⟨_, step_rst hu hr⟩
  | false =>
    by_cases ha : Accepts s
    · obtain ⟨hpin, hbase, hlen⟩ := hfit ha
      exact ⟨_, step_accept hu ha hpin hbase hlen⟩
    · exact ⟨_, step_micro hu hr ha⟩

/-- Settles O32: the foreign write is looked for before an operation is selected, a reset too; without one the tick is
unhindered. -/
theorem foreignPinWriteRefused : Obligations.ForeignPinWriteRefused := by
  intro s hf
  rw [← foreignWrite_iff]
  refine ⟨⟨fun h => ?_, step_of_foreignWrite hf⟩, fun hw => step_next_of_unhindered ⟨hf, Bool.eq_false_iff.2 hw⟩⟩
  by_contra hw
  exact step_ne_foreignPinWrite ⟨hf, Bool.eq_false_iff.2 hw⟩ h

/-! ## The block and `GPIO_DIR` (R28) -/

/-- The state with other direction bits. -/
def withDir (d : Nat) (s : State) : State := { s with gpioDir := d }

theorem lowerCell_withDir (d : Nat) (s : State) : lowerCell (withDir d s) = withDir d (lowerCell s) := by
  unfold lowerCell advanceCursor
  simp only [apply_ite (withDir d)]
  rfl

theorem cellTick_withDir (d : Nat) (s : State) : cellTick (withDir d s) = withDir d (cellTick s) := by
  have hover : periodOver (withDir d s) = periodOver s := rfl
  rw [cellTick, cellTick, hover]
  split <;> rfl

theorem highTick_withDir (d : Nat) (s : State) : highTick (withDir d s) = withDir d (highTick s) := by
  have hover : highOver (withDir d s) = highOver s := rfl
  rw [highTick, highTick, hover, lowerCell_withDir]
  split <;> rfl

theorem latchTick_withDir (d : Nat) (s : State) : latchTick (withDir d s) = withDir d (latchTick s) := by
  have hover : periodOver (withDir d s) = periodOver s := rfl
  rw [latchTick, latchTick, hover]
  split <;> rfl

theorem microTick_withDir (d : Nat) (s : State) : microTick (withDir d s) = withDir d (microTick s) := by
  cases hst : s.st with
  | idle =>
    rw [microTick_idle s hst, microTick_idle (withDir d s) hst]
    rfl
  | waitCell => rw [microTick_waitCell s hst, microTick_waitCell (withDir d s) hst, cellTick_withDir]
  | waitHigh => rw [microTick_waitHigh s hst, microTick_waitHigh (withDir d s) hst, highTick_withDir]
  | latch => rw [microTick_latch s hst, microTick_latch (withDir d s) hst, latchTick_withDir]

theorem presentCommand_withDir (m : Mode) (p b n d : Nat) (s : State) :
    presentCommand m p b n (withDir d s) = withDir d (presentCommand m p b n s) := by
  by_cases hst : s.st = .idle
  · rw [presentCommand_idle m p b n s hst, presentCommand_idle m p b n (withDir d s) hst]
    rfl
  · rw [presentCommand_busy m p b n s hst, presentCommand_busy m p b n (withDir d s) hst, microTick_withDir]

/-- No operation reads the direction bits. -/
theorem exec_withDir {i : Instr} {s t : State} (d : Nat) (h : exec i s = .next t) :
    exec i (withDir d s) = .next (withDir d t) := by
  cases i <;> cases h
  case txFast pin base len => exact congrArg _ (presentCommand_withDir _ _ _ _ d s)
  case txSlow pin base len => exact congrArg _ (presentCommand_withDir _ _ _ _ d s)
  case cellwait => exact congrArg _ (cellTick_withDir d s)
  case highwait => exact congrArg _ (highTick_withDir d s)
  case latchwait => exact congrArg _ (latchTick_withDir d s)
  all_goals rfl

/-! ## The wire of a call with and without its line an output -/

/-- The converse of `output_next`: `outputHeld` of the next tick remembers the line's direction bit of this one. -/
theorem output_of_next {p : Nat} {s t : State} (hs : step s = .next t) (hb : t.busy = true) (hp : t.pin = p)
    (hheld : t.outputHeld = true) (hout : OutputUntilReturn p t) : s.outputHeld = true ∧ OutputUntilReturn p s := by
  have hboth : s.outputHeld = true ∧ lineLevel s.gpioDir p = true := by
    obtain ⟨-, -, hmicro, haccept⟩ := step_next_outside hs
    rw [← Bool.and_eq_true, ← hheld, ← hp]
    by_cases ha : Accepts s
    · exact (haccept hb ha).2.symm
    · obtain ⟨hpin, e⟩ := hmicro hb ha
      rw [hpin, e]
  refine ⟨hboth.1, (outputUntilReturn_iff p s).2 ⟨hboth.2, fun u hu _ => ?_⟩⟩
  rw [hs] at hu
  cases hu
  exact hout

section
variable {call : Call} {s : State} (hs : call.Starts s) (hf : call.fitsCounter)
include hs

/-- The accept tick belongs to the call too: its line is `CMD_PIN` (log 15). -/
theorem Call.Starts.callLine_accept : callLine s = some call.pin := by
  obtain ⟨hst, hr, hstart⟩ := hs.accepts
  simp [callLine, hs.busy, hst, hr, hstart, hs.pin.1]

include hf

theorem Call.Starts.callLine_eq {n : Nat} (hn : n < call.rise (8 * call.len)) :
    ∃ t, stateAfter n s = some t ∧ callLine t = some call.pin := by
  cases n with
  | zero => exact ⟨s, rfl, hs.callLine_accept⟩
  | succ n =>
    obtain ⟨t, ht, hruns⟩ := hs.runs hf (Nat.le_add_left 1 n) hn
    exact ⟨t, ht, hruns.pin ▸ callLine_of_busy hruns.busy⟩

/-- A tick of the call in which the line has been an output so far and stays one tells of the whole call. -/
theorem Call.Starts.output_of_tick {n : Nat} {t : State} (hn : n < call.rise (8 * call.len))
    (ht : stateAfter n s = some t) (hheld : t.outputHeld = true) (hout : OutputUntilReturn call.pin t) :
    OutputUntilReturn call.pin s := by
  induction n generalizing t with
  | zero =>
    cases ht
    exact hout
  | succ n ih =>
    obtain ⟨v, hv, hstep⟩ := stateAfter_succ_last ht
    obtain ⟨t', ht', hruns⟩ := hs.runs hf (Nat.le_add_left 1 n) hn
    obtain rfl : t = t' := Option.some.inj (ht.symm.trans ht')
    obtain ⟨hheld', hout'⟩ := output_of_next hstep hruns.busy hruns.pin hheld hout
    exact ih (by omega) hv hheld' hout'

end

/-- Settles O50: `exec` neither writes nor reads `GPIO_DIR`, and in each tick of the call what `outputHeld` and the look
ahead say together is what `OutputUntilReturn` says in the accept tick. -/
theorem callWire : Obligations.CallWire := by
  refine ⟨fun i s t d h => ⟨(exec_sameOutside h).gpioDir, exec_withDir d h⟩, fun call s hs hf n hn => ?_⟩
  obtain ⟨t, ht, hline⟩ := hs.callLine_eq hf hn
  obtain ⟨hbit, hfree⟩ := wire_of_callLine hline
  refine ⟨t, ht, fun hout => hbit (hs.output hf hout hn ht), fun hout => hfree fun ⟨hheld, hahead⟩ => hout ?_⟩
  exact hs.output_of_tick hf hn ht hheld hahead

end Sys2Proof.Machine

/-! PROOFS. The reset step (R125), and the lines that other agents write in its tick (R37, log 13). -/

namespace Sys2Proof.Machine

/-- In a reset tick the lines that another agent writes are dropped (log 13). -/
theorem hostEffects_gpioOut_of_rst {m : HostMove} (h : m.ports.rst = true) (s : State) :
    (hostEffects m s).gpioOut = s.gpioOut := by
  rw [hostEffects_gpioOut, if_pos h]

/-- Settles O25: `RST` is the model's `resetStep`, and what the host does in the tick that takes it adds no write to a
line. -/
theorem resetStep_holds : Obligations.ResetStep := by
  refine fun s => ⟨⟨resetStep s, rfl, resetStep_st s, resetStep_busy s, resetStep_gpioOut s, resetStep_ccount s⟩,
    fun hu hr => ⟨hostEffects (currentMove s) (resetStep s), step_rst hu hr, ?_, ?_, ?_, ?_⟩⟩
  · rw [hostEffects_st, resetStep_st]
  · rw [hostEffects_busy, resetStep_busy]
  · rw [hostEffects_gpioOut_of_rst hr, resetStep_gpioOut]
  · rw [hostEffects_ccount, resetStep_ccount, addMod_eq]

/-- A reset while the call drives line 0 high, in whose tick another agent writes line 15 to 1: the second clause of O25
in the case of log 13. -/
theorem witness_resets_lineWritten :
    ∃ t, step (withMove { HostMove.reset with pinWrites := [(15, true)] }
      { State.reset with st := .waitHigh, busy := true, gpioOut := 1 }) = .next t ∧ t.gpioOut = 0 := by
  obtain ⟨t, hstep, -, -, hlines, -⟩ := (resetStep_holds (withMove { HostMove.reset with pinWrites := [(15, true)] }
    { State.reset with st := .waitHigh, busy := true, gpioOut := 1 })).2 ⟨rfl, rfl⟩ rfl
  exact ⟨t, hstep, hlines⟩

end Sys2Proof.Machine
